-- ==== Sys2Proof/Word.lean ====
section
/-! DEFINITION. The byte and the operand words of the block (00_scope.md R9, R11; 10_state.md R21). -/

namespace Sys2Proof

/-- A byte: an 8-bit value (R9). -/
abbrev Byte := BitVec 8

/-- One 16-bit operand field (`u16`, R11). -/
abbrev Half := BitVec 16

/-- One 32-bit operand slot `w0 .. w5` (R21), also the field of `u32` and of `i32` (R11). -/
abbrev Word := BitVec 32

/-- An `AxisSet`: a 5-bit mask, bit0=X, bit1=Y, bit2=Z, bit3=A, bit4=B (R11, R21). -/
abbrev AxisSet := BitVec 5

end Sys2Proof
end

