-- ==== Sys2Proof/Syntax.lean ====
section
/-! DEFINITION. The 25 commands as typed variants (30_encoding.md R80, opcode_table.json) and the descriptor, the
binary form in which the host presents one (10_state.md R21). -/

namespace Sys2Proof

/-- One command of the catalog with its typed operands: one constructor per row of opcode_table.json, in tag
order (R80, R85). An `i32` operand is its 32-bit two's-complement image; a byte string is a list of bytes. -/
inductive Instr where
  /-- Tag 0, id 0x00 (R140). -/
  | getVersion
  /-- Tag 1, id 0x01 (R141). -/
  | init
  /-- Tag 2, id 0x02 (R142). -/
  | availableBufferSize
  /-- Tag 3, id 0x03 (R143). -/
  | clearBuffer
  /-- Tag 4, id 0x07 (R144). -/
  | abort
  /-- Tag 5, id 0x08 (R145). -/
  | pause
  /-- Tag 6, id 0x0A (R146). -/
  | toolQuery (toolIndex : Byte) (subQuery : List Byte)
  /-- Tag 7, id 0x0B (R147). -/
  | isFinished
  /-- Tag 8, id 0x0C (R148). -/
  | eepromRead (offset : Half) (nBytes : Byte)
  /-- Tag 9, id 0x0D (R149). -/
  | eepromWrite (offset : Half) (nBytes : Byte) (data : List Byte)
  /-- Tag 10, id 0x11 (R150): a command to the device, not the block's own `RESET` step. -/
  | reset
  /-- Tag 11, id 0x15 (R151). -/
  | getCurrentPosition
  /-- Tag 12, id `DELAY_ID` (R152). -/
  | delay (durationUs : Word)
  /-- Tag 13, id 0x17 (R153). -/
  | getMotherboardStatus
  /-- Tag 14, id 0x83 (R160). -/
  | homeAxesMinimum (axes : AxisSet) (feedrate : Word) (timeoutSec : Half)
  /-- Tag 15, id 0x84 (R161). -/
  | homeAxesMaximum (axes : AxisSet) (feedrate : Word) (timeoutSec : Half)
  /-- Tag 16, id 0x86 (R162). -/
  | changeTool (toolId : Byte)
  /-- Tag 17, id 0x87 (R163). -/
  | waitForToolReady (toolId : Byte) (queryDelayMs timeoutSec : Half)
  /-- Tag 18, id 0x89 (R164). -/
  | enableDisableAxes (axes : AxisSet) (enable : Bool)
  /-- Tag 19, id 0x8B (R165). -/
  | queueExtendedPointLegacy (x y z a b : Word) (feedrateUs : Word)
  /-- Tag 20, id 0x8C (R166). -/
  | setExtendedPosition (x y z a b : Word)
  /-- Tag 21, id 0x8D (R167). -/
  | waitForPlatformReady (toolId : Byte) (queryDelayMs timeoutSec : Half)
  /-- Tag 22, id 0x8E (R168). -/
  | queueExtendedPoint (x y z a b : Word) (durationUs : Word) (axes : AxisSet)
  /-- Tag 23, id 0x92 (R169): the fifth payload byte is reserved and no operand. -/
  | setRgbLed (red green blue blinkRate : Byte)
  /-- Tag 24, id 0x88 (R170). -/
  | toolAction (toolId actionId : Byte) (payload : List Byte)
  deriving DecidableEq, Repr

/-- The descriptor: the operand slots the host drives while it presents a command, sampled once by `CMD_ACCEPT`
(R21). `v` is the 253-entry byte array of the command port (R41); the byte string is its first `vlen` entries. -/
structure Descriptor where
  tag : BitVec 5
  w0 : Word
  w1 : Word
  w2 : Word
  w3 : Word
  w4 : Word
  w5 : Word
  m : AxisSet
  e : Bool
  vlen : Byte
  v : Vector Byte 253
  deriving DecidableEq, Repr

/-- Why a descriptor is refused (60_exceptions.md R211). -/
inductive RefuseReason where
  /-- The tag is one of 25..31 (R87). -/
  | badTag
  /-- The byte string is longer than the length byte allows (R88). -/
  | tooLong
  deriving DecidableEq, Repr

/-- An axis of the machine, as the API boundary names it (R93). -/
inductive Axis where
  | x
  | y
  | z
  | a
  | b
  deriving DecidableEq, Repr

end Sys2Proof
end

