-- ==== Sys2Proof/WellFormed.lean ====
section
/-! DEFINITION. Which commands have a frame: the check `FitsLength` of 41_frame_serializer.md R122 on the typed
command. Numeric operands carry their width in their type and take no part in it (R95). -/

namespace Sys2Proof

/-- The longest byte string a command may carry: `VCAP` of 30_encoding.md R88; `none` for a command whose `v` slot
is not bound. -/
def Instr.byteStringCap : Instr → Option Nat
  | .toolQuery _ _ => some 253
  | .eepromWrite _ _ _ => some 251
  | .toolAction _ _ _ => some 252
  | .getVersion | .init | .availableBufferSize | .clearBuffer | .abort | .pause | .isFinished | .eepromRead _ _
  | .reset | .getCurrentPosition | .delay _ | .getMotherboardStatus | .homeAxesMinimum _ _ _ | .homeAxesMaximum _ _ _
  | .changeTool _ | .waitForToolReady _ _ _ | .enableDisableAxes _ _ | .queueExtendedPointLegacy _ _ _ _ _ _
  | .setExtendedPosition _ _ _ _ _ | .waitForPlatformReady _ _ _ | .queueExtendedPoint _ _ _ _ _ _ _
  | .setRgbLed _ _ _ _ => none

/-- The byte-string argument of a command, the empty string where it has none (R86). -/
def Instr.byteString : Instr → List Byte
  | .toolQuery _ subQuery => subQuery
  | .eepromWrite _ _ data => data
  | .toolAction _ _ payload => payload
  | .getVersion | .init | .availableBufferSize | .clearBuffer | .abort | .pause | .isFinished | .eepromRead _ _
  | .reset | .getCurrentPosition | .delay _ | .getMotherboardStatus | .homeAxesMinimum _ _ _ | .homeAxesMaximum _ _ _
  | .changeTool _ | .waitForToolReady _ _ _ | .enableDisableAxes _ _ | .queueExtendedPointLegacy _ _ _ _ _ _
  | .setExtendedPosition _ _ _ _ _ | .waitForPlatformReady _ _ _ | .queueExtendedPoint _ _ _ _ _ _ _
  | .setRgbLed _ _ _ _ => []

/-- A command is well formed when its byte string fits (R88, R122). -/
def Instr.wf (i : Instr) : Bool :=
  match i.byteStringCap with
  | some cap => decide (i.byteString.length ≤ cap)
  | none => true

end Sys2Proof
end

