-- ==== Sys2Proof/Decode.lean ====
section
/-! DEFINITION. The descriptor decoder, the encoder, and the reading of a word of opcode_table.json
(30_encoding.md R85 to R88, R91). -/

namespace Sys2Proof

/-! ### Slots to operands -/

/-- The low byte of a slot: a `u8` operand (R86). -/
def low8 (w : Word) : Byte := w.setWidth 8

/-- The low half of a slot: a `u16` operand (R86). -/
def low16 (w : Word) : Half := w.setWidth 16

/-- `v[0 .. vlen-1]`: the byte string a descriptor carries (R21, R86). -/
def Descriptor.bytes (d : Descriptor) : List Byte := d.v.toList.take d.vlen.toNat

/-- The byte string of a descriptor whose length passes `vlen <= cap`, else `TooLong` (R88). -/
def Descriptor.boundedBytes (d : Descriptor) (cap : Nat) : Except RefuseReason (List Byte) :=
  if d.vlen.toNat ≤ cap then .ok d.bytes else .error .tooLong

/-- The decoder: tag and bound slots to the typed command (R85, R86). Total on every descriptor; `BadTag` for the
tags 25..31 (R87), tested before `TooLong` (R125). -/
def decode (d : Descriptor) : Except RefuseReason Instr :=
  match d.tag.toNat with
  | 0 => .ok .getVersion
  | 1 => .ok .init
  | 2 => .ok .availableBufferSize
  | 3 => .ok .clearBuffer
  | 4 => .ok .abort
  | 5 => .ok .pause
  | 6 => (d.boundedBytes 253).map fun v => .toolQuery (low8 d.w0) v
  | 7 => .ok .isFinished
  | 8 => .ok (.eepromRead (low16 d.w0) (low8 d.w1))
  | 9 => (d.boundedBytes 251).map fun v => .eepromWrite (low16 d.w0) (low8 d.w1) v
  | 10 => .ok .reset
  | 11 => .ok .getCurrentPosition
  | 12 => .ok (.delay d.w0)
  | 13 => .ok .getMotherboardStatus
  | 14 => .ok (.homeAxesMinimum d.m d.w0 (low16 d.w1))
  | 15 => .ok (.homeAxesMaximum d.m d.w0 (low16 d.w1))
  | 16 => .ok (.changeTool (low8 d.w0))
  | 17 => .ok (.waitForToolReady (low8 d.w0) (low16 d.w1) (low16 d.w2))
  | 18 => .ok (.enableDisableAxes d.m d.e)
  | 19 => .ok (.queueExtendedPointLegacy d.w0 d.w1 d.w2 d.w3 d.w4 d.w5)
  | 20 => .ok (.setExtendedPosition d.w0 d.w1 d.w2 d.w3 d.w4)
  | 21 => .ok (.waitForPlatformReady (low8 d.w0) (low16 d.w1) (low16 d.w2))
  | 22 => .ok (.queueExtendedPoint d.w0 d.w1 d.w2 d.w3 d.w4 d.w5 d.m)
  | 23 => .ok (.setRgbLed (low8 d.w0) (low8 d.w1) (low8 d.w2) (low8 d.w3))
  | 24 => (d.boundedBytes 252).map fun v => .toolAction (low8 d.w0) (low8 d.w1) v
  | _ => .error .badTag

/-! ### The encoder -/

/-- The 253-entry array of the command port that begins with `bytes`; the rest is zero and is not read
(log entry 11). -/
def packBytes (bytes : List Byte) : Vector Byte 253 :=
  ⟨((bytes ++ List.replicate 253 0).take 253).toArray, by
    rw [List.size_toArray, List.length_take, List.length_append, List.length_replicate]; omega⟩

/-- The descriptor with this tag and every other slot zero. -/
def Descriptor.ofTag (tag : BitVec 5) : Descriptor :=
  { tag, w0 := 0, w1 := 0, w2 := 0, w3 := 0, w4 := 0, w5 := 0, m := 0, e := false, vlen := 0,
    v := Vector.replicate 253 0 }

/-- The descriptor with this byte string in `vlen` and `v`. -/
def Descriptor.withBytes (d : Descriptor) (bytes : List Byte) : Descriptor :=
  { d with vlen := BitVec.ofNat 8 bytes.length, v := packBytes bytes }

/-- The descriptor of a command (R85, R86): each operand in its bound slot, every unbound slot and bit zero. -/
def encode : Instr → Descriptor
  | .getVersion => .ofTag 0
  | .init => .ofTag 1
  | .availableBufferSize => .ofTag 2
  | .clearBuffer => .ofTag 3
  | .abort => .ofTag 4
  | .pause => .ofTag 5
  | .toolQuery toolIndex subQuery => { Descriptor.ofTag 6 with w0 := toolIndex.setWidth 32 }.withBytes subQuery
  | .isFinished => .ofTag 7
  | .eepromRead offset nBytes => { Descriptor.ofTag 8 with w0 := offset.setWidth 32, w1 := nBytes.setWidth 32 }
  | .eepromWrite offset nBytes data =>
    { Descriptor.ofTag 9 with w0 := offset.setWidth 32, w1 := nBytes.setWidth 32 }.withBytes data
  | .reset => .ofTag 10
  | .getCurrentPosition => .ofTag 11
  | .delay durationUs => { Descriptor.ofTag 12 with w0 := durationUs }
  | .getMotherboardStatus => .ofTag 13
  | .homeAxesMinimum axes feedrate timeoutSec =>
    { Descriptor.ofTag 14 with m := axes, w0 := feedrate, w1 := timeoutSec.setWidth 32 }
  | .homeAxesMaximum axes feedrate timeoutSec =>
    { Descriptor.ofTag 15 with m := axes, w0 := feedrate, w1 := timeoutSec.setWidth 32 }
  | .changeTool toolId => { Descriptor.ofTag 16 with w0 := toolId.setWidth 32 }
  | .waitForToolReady toolId queryDelayMs timeoutSec =>
    { Descriptor.ofTag 17 with
      w0 := toolId.setWidth 32, w1 := queryDelayMs.setWidth 32, w2 := timeoutSec.setWidth 32 }
  | .enableDisableAxes axes enable => { Descriptor.ofTag 18 with m := axes, e := enable }
  | .queueExtendedPointLegacy x y z a b feedrateUs =>
    { Descriptor.ofTag 19 with w0 := x, w1 := y, w2 := z, w3 := a, w4 := b, w5 := feedrateUs }
  | .setExtendedPosition x y z a b => { Descriptor.ofTag 20 with w0 := x, w1 := y, w2 := z, w3 := a, w4 := b }
  | .waitForPlatformReady toolId queryDelayMs timeoutSec =>
    { Descriptor.ofTag 21 with
      w0 := toolId.setWidth 32, w1 := queryDelayMs.setWidth 32, w2 := timeoutSec.setWidth 32 }
  | .queueExtendedPoint x y z a b durationUs axes =>
    { Descriptor.ofTag 22 with w0 := x, w1 := y, w2 := z, w3 := a, w4 := b, w5 := durationUs, m := axes }
  | .setRgbLed red green blue blinkRate =>
    { Descriptor.ofTag 23 with
      w0 := red.setWidth 32, w1 := green.setWidth 32, w2 := blue.setWidth 32, w3 := blinkRate.setWidth 32 }
  | .toolAction toolId actionId payload =>
    { Descriptor.ofTag 24 with w0 := toolId.setWidth 32, w1 := actionId.setWidth 32 }.withBytes payload

/-! ### Words of opcode_table.json -/

/-- One row of opcode_table.json: the first three frame bytes as one 24-bit number,
`(frame[0] << 16) | (frame[1] << 8) | frame[2]`, under `mask` (R91). `lengthBase` is given for the three rows that
end in a byte string: their length byte is `lengthBase + n`. -/
structure TableRow where
  tag : BitVec 5
  pattern : BitVec 24
  mask : BitVec 24
  lengthBase : Option Nat
  deriving DecidableEq, Repr

/-- A row whose three bytes are all fixed. -/
def TableRow.fixed (tag : BitVec 5) (pattern : BitVec 24) : TableRow :=
  { tag, pattern, mask := 0xFFFFFF, lengthBase := none }

/-- A row whose length byte is free. -/
def TableRow.withString (tag : BitVec 5) (pattern : BitVec 24) (lengthBase : Nat) : TableRow :=
  { tag, pattern, mask := 0xFF00FF, lengthBase := some lengthBase }

/-- The 25 rows of opcode_table.json in tag order; Delay's row is the one for the default `DELAY_ID` (R91). -/
def opcodeTable : List TableRow :=
  [.fixed 0 0xD50100, .fixed 1 0xD50101, .fixed 2 0xD50102, .fixed 3 0xD50103, .fixed 4 0xD50107,
    .fixed 5 0xD50108, .withString 6 0xD5000A 2, .fixed 7 0xD5010B, .fixed 8 0xD5040C, .withString 9 0xD5000D 4] ++
  [.fixed 10 0xD50111, .fixed 11 0xD50115, .fixed 12 0xD50515, .fixed 13 0xD50117, .fixed 14 0xD50883,
    .fixed 15 0xD50884, .fixed 16 0xD50286, .fixed 17 0xD50687, .fixed 18 0xD50289, .fixed 19 0xD5198B] ++
  [.fixed 20 0xD5158C, .fixed 21 0xD5068D, .fixed 22 0xD51A8E, .fixed 23 0xD50692, .withString 24 0xD50088 3]

/-- "a frame f belongs to the row when (that number & mask) = match" (R91). -/
def TableRow.covers (r : TableRow) (header : BitVec 24) : Bool := (header &&& r.mask) == r.pattern

/-- The length byte of a header: bits 15..8. -/
def headerLength (header : BitVec 24) : Nat := (header.extractLsb' 8 8).toNat

/-- The descriptor of the table word `w` of `nbits` bits, every operand byte above the word zero: the tag of the row
that covers the word, and as many zero bytes in `v` as its length byte asks for. A word no row covers has no
descriptor of its own and is given the illegal tag 31 (log entry 8). -/
def tableDescriptor (nbits w : Nat) : Descriptor :=
  let header : BitVec 24 := BitVec.ofNat 24 (w % 2 ^ nbits)
  match opcodeTable.find? fun r => r.covers header with
  | some r =>
    match r.lengthBase with
    | some base => { Descriptor.ofTag r.tag with vlen := BitVec.ofNat 8 (headerLength header - base) }
    | none => .ofTag r.tag
  | none => .ofTag 31

/-- The instruction the decoder reads from the table word `w` of `nbits` bits, numbered as opcode_table.json
numbers them (R91); `none` where the decoder refuses. Log entry 8. -/
def decodeTableWord (nbits w : Nat) : Option Instr :=
  match decode (tableDescriptor nbits w) with
  | .ok i => some i
  | .error _ => none

end Sys2Proof
end

