-- ==== Sys2Proof/Machine/Constants.lean ====
section
/-! DEFINITION. The constants the spec fixes (00_scope.md R6, R7). -/

namespace Sys2Proof.Machine

/-- `SYNC`, frame byte 0 (R6, R71). -/
def sync : Byte := 0xD5

/-- `CRC_INIT` (R6). -/
def crcInit : Byte := 0x00

/-- `CRC_POLY_R`, the reflected polynomial constant (R6). -/
def crcPolyR : Byte := 0x8C

/-- `STATUS_OK`: a response whose first body byte is this is acknowledged (R6). -/
def statusOk : Byte := 0x00

/-- `RX_LEN_MIN`, the least legal received length byte (R6). -/
def rxLenMin : Nat := 1

/-- `RX_LEN_MAX`, the greatest legal received length byte and the size of `rx_buf` (R6, R31). -/
def rxLenMax : Nat := 255

/-- `TX_PAYLOAD_MAX`, the longest payload a frame can carry (R7, R74). -/
def txPayloadMax : Nat := 254

/-- The size of `tx_buf`: the longest frame (R25). -/
def txBufSize : Nat := 258

/-- The size of `rx_buf` (R31). -/
def rxBufSize : Nat := 255

/-- `ENABLE_BIT`, the bit of the EnableDisableAxes byte that carries the enable flag (R7, R79, decision D3 of
92_eei_decisions.md, from general knowledge there). Log entry 3. -/
def enableBit : Nat := 7

end Sys2Proof.Machine
end

