-- ==== Sys2Proof/Config.lean ====
section
/-! DEFINITION. What one instance of the block fixes (00_scope.md R7; 10_state.md R34). -/

namespace Sys2Proof

/-- The constants of one instance of the block that the spec leaves OPEN: "constants of one instance of the
block; no step writes them" (R34). `ENABLE_BIT` is fixed by the spec (R79) and stands in
`Sys2Proof.Machine.enableBit`. Log entry 2. -/
structure Config where
  /-- `DELAY_ID`, the id byte of the Delay command: OPEN (R7, R81). -/
  delayId : Byte
  deriving DecidableEq, Repr

/-- The default instance: `DELAY_ID = 0x15`, "the only value the source prints" (R7). -/
def Config.default : Config := { delayId := 0x15 }

end Sys2Proof
end

