-- ==== Sys2Proof/Machine/State.lean ====
section
/-! DEFINITION. The state of the block (10_state.md R22 to R31, 20_memory.md R50), the events it raises
(60_exceptions.md R210), the steps that may be scheduled (00_scope.md R14), and the state after reset (10_state.md
R47). -/

namespace Sys2Proof.Machine

/-- Why a step stops. Each is raised only in a state that breaks an invariant the spec states of every reachable
state (R26, R30, R33); all are safe: the model stops where the spec describes no machine. Log entry 6. -/
inductive Fault where
  /-- Raised by `TX_EMIT` when `tx_buf[tx_idx]` was never written or does not exist (against R26). Safe. -/
  | txByteUnwritten
  /-- Raised by `RX_BYTE` in `AwaitPayload` when no body byte is due (`rx_remaining = 0`, against R33). Safe. -/
  | rxNoBodyByteDue
  /-- Raised by `RX_BYTE` in `AwaitPayload` when the body byte's index is outside `rx_buf` (against R33). Safe. -/
  | rxIndexOutside
  /-- Raised by `RX_BYTE` in `AwaitChecksum` when a byte of the body was never written, or the body has no byte
  (against R30 and R33). Safe. -/
  | rxBodyUnwritten
  deriving DecidableEq, Repr

/-- Why a step has no meaning. -/
inductive Refusal where
  /-- Raised by no arm of this model: every command has its meaning. Safe. -/
  | notModelled (mnemonic : String)
  deriving DecidableEq, Repr

/-- Why a received frame is given up (R213). -/
inductive FramingReason where
  | badChecksum
  | badLength
  | truncated
  deriving DecidableEq, Repr

/-- A completed response, classified by its first body byte (44_deframer.md R187). Both carry the whole body. -/
inductive Response where
  | acknowledged (payload : List Byte)
  | deviceRejected (code : Byte) (payload : List Byte)
  deriving DecidableEq, Repr

/-- What the block tells the host (R210): five kinds, `Complete` counting as two by its class. -/
inductive Event where
  | cmdRefused (reason : RefuseReason)
  | rxDiscard (byte : Byte)
  | complete (response : Response)
  | framingError (reason : FramingReason)
  deriving DecidableEq, Repr

/-- The state of the deframer between bytes (R27). -/
inductive RxState where
  | awaitSync
  | awaitLength
  | awaitPayload
  | awaitChecksum
  deriving DecidableEq, Repr

/-- One scheduled step (R14): which agent moves, and the input it moves on. An entry whose step is not enabled
passes without effect. Log entry 1. -/
inductive Action where
  /-- The host offers this descriptor on the command port (R41, R123). -/
  | cmdAccept (d : Descriptor)
  /-- The transport is ready for one byte (R42, R126). -/
  | txEmit
  /-- The transport hands over the next byte of the inbound stream (R43, R180). -/
  | rxByte
  /-- The host says the response has ended (R44, R192). -/
  | rxTimeout
  /-- The host resets the block (R40, R242). -/
  | reset
  deriving DecidableEq, Repr

/-- A byte buffer: index and byte, indices strictly rising (`Memory.wf`). An index that is not listed holds no value
(`Memory.unlisted`). -/
abbrev Memory := List Host.Cell

/-- The machine: the block, the two byte streams at its boundary, and the inputs still to come. -/
structure State where
  /-- The constants of this instance (R34). No step writes them. -/
  config : Config
  /-- `tx_busy` (R22). -/
  txBusy : Bool
  /-- `tx_idx : 0..258` (R23). -/
  txIdx : Nat
  /-- `tx_len : 0..258` (R24). -/
  txLen : Nat
  /-- `tx_buf : byte[258]` (R25). -/
  txBuf : Memory
  /-- `rx_state` (R27). -/
  rxState : RxState
  /-- `rx_len : 0..255` (R28). -/
  rxLen : Nat
  /-- `rx_remaining : 0..255` (R29). -/
  rxRemaining : Nat
  /-- `rx_crc` (R30). -/
  rxCrc : Byte
  /-- `rx_buf : byte[255]` (R31). -/
  rxBuf : Memory
  /-- How many bytes of `rx_buf` the host may read, from index 0 on: the body's length while the window of R32 is
  open, 0 while it is closed. The model's own. Log entry 15. -/
  rxWindow : Nat
  /-- The outbound stream: every byte sent so far, oldest first (R50, R58). -/
  outbound : List Byte
  /-- The inbound stream: the bytes not yet taken, the next one first (R50, R58). -/
  inbound : List Byte
  /-- The event pulses: the events of the latest step (R45, R221). -/
  pulses : List Event
  /-- The observation: all events raised so far, oldest first (R221). The model's own. Log entry 7. -/
  events : List Event
  /-- The steps still to be taken. The model's own. Log entry 1. -/
  schedule : List Action
  deriving DecidableEq, Repr

/-- The machine right after reset (R47), with nothing sent, nothing offered and nothing scheduled (log entry 9), and
`DELAY_ID` at its default (R7). No index of either buffer holds a value (log entry 4), and no body is readable. -/
def State.reset : State where
  config := Config.default
  txBusy := false
  txIdx := 0
  txLen := 0
  txBuf := []
  rxState := .awaitSync
  rxLen := 0
  rxRemaining := 0
  rxCrc := 0x00
  rxBuf := []
  rxWindow := 0
  outbound := []
  inbound := []
  pulses := []
  events := []
  schedule := []

end Sys2Proof.Machine
end

