-- ==== Sys2Proof/Machine/Ops.lean ====
section
/-! DEFINITION. The shared operations: byte buffers (20_memory.md R50, R57), events (60_exceptions.md R210, R218),
the frame constructor and the acceptance of a command (41_frame_serializer.md R120, R124, R125), and the block's
reset (70_reset_and_hazards.md R242). -/

namespace Sys2Proof.Machine

/-! ### Byte buffers -/

/-- What an index that is not listed reads as: no value (log entry 4). -/
def Memory.unlisted : Option Byte := none

/-- The canonical form of a buffer of `size` bytes: indices strictly rising and inside the buffer, and no entry that
says what an unlisted index says. -/
abbrev Memory.wf (size : Nat) (m : Memory) : Prop :=
  m.Pairwise (fun a b => a.1 < b.1) ∧ ∀ c ∈ m, c.1 < size ∧ some c.2 ≠ Memory.unlisted

/-- The byte at one index. -/
def Memory.read : Memory → Nat → Option Byte
  | [], _ => Memory.unlisted
  | c :: rest, a => if c.1 = a then some c.2 else Memory.read rest a

/-- The buffer with one byte stored. Every byte differs from what an unlisted index reads as, so a store never
removes an entry. -/
def Memory.write : Memory → Nat → Byte → Memory
  | [], a, b => [(a, b)]
  | c :: rest, a, b =>
    if a < c.1 then (a, b) :: c :: rest else if a = c.1 then (a, b) :: rest else c :: Memory.write rest a b

/-- `MemRead(buf, i, n)`: the `n` bytes from index `i`, lowest first (00_scope.md R13); `none` if one of them holds no
value. -/
def Memory.readBytes (m : Memory) : Nat → Nat → Option (List Byte)
  | _, 0 => some []
  | i, n + 1 =>
    match m.read i, Memory.readBytes m (i + 1) n with
    | some b, some rest => some (b :: rest)
    | _, _ => none

/-- `MemWrite(buf, i, n, s)`: the bytes `s` stored from index `i` on (00_scope.md R13). -/
def Memory.writeBytes : Memory → Nat → List Byte → Memory
  | m, _, [] => m
  | m, i, b :: rest => Memory.writeBytes (m.write i b) (i + 1) rest

/-! ### Outcomes and events -/

/-- Go on from a next state; a fault or a refusal ends the sequence. -/
def andThen (o : Host.Outcome State Fault Refusal) (f : State → Host.Outcome State Fault Refusal) :
    Host.Outcome State Fault Refusal :=
  match o with
  | .next s => f s
  | .fault r => .fault r
  | .refused r => .refused r

/-- `emit E(info)`: the event is presented to the host in this step (00_scope.md R13, R221). -/
def State.emit (e : Event) (s : State) : State :=
  { s with pulses := s.pulses ++ [e], events := s.events ++ [e] }

/-- Taking an error event of the deframer, `raise FramingError(reason)`: nothing is saved and control goes nowhere;
its whole effect is the event and `rx_state <- AwaitSync` (R213, R218). There is no return operation (R219). -/
def State.raiseFraming (reason : FramingReason) (s : State) : State :=
  { s with rxState := .awaitSync }.emit (.framingError reason)

/-- `emit Complete(body)` (R186, R214): the response is handed over, `rx_state <- AwaitSync`, and the body's `rx_len`
bytes of `rx_buf` are readable: the window of R32 opens. -/
def State.emitComplete (response : Response) (s : State) : State :=
  { s with rxState := .awaitSync, rxWindow := s.rxLen }.emit (.complete response)

/-! ### Frames and acceptance -/

/-- What a command is on the wire before framing: `id(cmd)` and `payload(cmd)` (R121). -/
structure Layout where
  id : Byte
  payload : List Byte
  deriving DecidableEq, Repr

/-- The body of a frame: `[id] ++ payload` (00_scope.md R16). -/
def Layout.body (l : Layout) : List Byte := l.id :: l.payload

/-- `Frame(id, p)` (R120): sync, length, body, check byte. -/
def frame (l : Layout) : List Byte :=
  [sync, BitVec.ofNat 8 l.body.length] ++ l.body ++ [crc8 l.body]

/-- The state with a frame taken up for sending: `MemWrite(tx_buf, 0, len(f), f)`, `tx_len`, `tx_idx`, `tx_busy`
(R124). -/
def State.loadFrame (f : List Byte) (s : State) : State :=
  { s with txBuf := s.txBuf.writeBytes 0 f, txLen := f.length, txIdx := 0, txBusy := true }

/-- `CMD_ACCEPT` of a command with this layout. Not enabled while `tx_busy`: neither taken nor refused (R123). A
payload that fits is framed and loaded (R124); one that is too long is refused and writes no state (R125, R88). -/
def accept (l : Layout) (s : State) : Host.Outcome State Fault Refusal :=
  if s.txBusy then .next s
  else if l.payload.length ≤ txPayloadMax then .next (s.loadFrame (frame l))
  else .next (s.emit (.cmdRefused .tooLong))

/-! ### The block's reset -/

/-- `RESET` (R242): every control register at its reset value (R47), no event, no byte sent. The buffers' contents
are unspecified afterwards: no index holds a value (log entry 4). The streams are not the block's: bytes sent stay
sent (R247), bytes not yet taken stay to come (R252). -/
def State.resetBlock (s : State) : State :=
  { s with
    txBusy := false, txIdx := 0, txLen := 0, txBuf := []
    rxState := .awaitSync, rxLen := 0, rxRemaining := 0, rxCrc := 0x00, rxBuf := [], rxWindow := 0
    pulses := [] }

end Sys2Proof.Machine
end

