-- ==== Sys2Proof/Machine/Deframer.lean ====
section
/-! DEFINITION. The deframer: `RX_BYTE` in its six cases, the classification of a response, `feed`, and `RX_TIMEOUT`
(44_deframer.md R180 to R192). -/

namespace Sys2Proof.Machine

/-- The class of a completed body by its status byte (R187); a body has at least that byte. -/
def classify : List Byte → Option Response
  | [] => none
  | status :: data =>
    if status = statusOk then some (.acknowledged (status :: data))
    else some (.deviceRejected status (status :: data))

/-- `AwaitSync`: the sync byte starts a frame (R181), any other byte is discarded and reported (R182). -/
def rxAwaitSync (d : Byte) (s : State) : Host.Outcome State Fault Refusal :=
  if d = sync then .next { s with rxState := .awaitLength } else .next (s.emit (.rxDiscard d))

/-- `AwaitLength`: a zero is no length (R183), any other byte is the body length (R184). -/
def rxAwaitLength (d : Byte) (s : State) : Host.Outcome State Fault Refusal :=
  if d.toNat < rxLenMin then .next (s.raiseFraming .badLength)
  else .next { s with rxLen := d.toNat, rxRemaining := d.toNat, rxCrc := crcInit, rxState := .awaitPayload }

/-- `AwaitPayload`: a body byte is stored at its index and folded into the checksum (R185). The store closes the
host's window on the body before (R32). -/
def rxAwaitPayload (d : Byte) (s : State) : Host.Outcome State Fault Refusal :=
  if s.rxRemaining = 0 then .fault .rxNoBodyByteDue
  else
    let k := s.rxLen - s.rxRemaining
    if k < rxBufSize then
      .next { s with
        rxBuf := s.rxBuf.write k d
        rxWindow := 0
        rxCrc := crcByte s.rxCrc d
        rxRemaining := s.rxRemaining - 1
        rxState := if s.rxRemaining - 1 = 0 then .awaitChecksum else .awaitPayload }
    else .fault .rxIndexOutside

/-- `AwaitChecksum`: the check byte either completes the response or gives a framing error; the deframer searches
again in both cases (R186). The body is read only where it is handed over (log entry 12). -/
def rxAwaitChecksum (d : Byte) (s : State) : Host.Outcome State Fault Refusal :=
  if d = s.rxCrc then
    match (s.rxBuf.readBytes 0 s.rxLen).bind classify with
    | some response => .next (s.emitComplete response)
    | none => .fault .rxBodyUnwritten
  else .next (s.raiseFraming .badChecksum)

/-- `RX_BYTE(d)`: exactly one of the six cases, by `rx_state` (R180). -/
def rxByte (d : Byte) (s : State) : Host.Outcome State Fault Refusal :=
  match s.rxState with
  | .awaitSync => rxAwaitSync d s
  | .awaitLength => rxAwaitLength d s
  | .awaitPayload => rxAwaitPayload d s
  | .awaitChecksum => rxAwaitChecksum d s

/-- `feed(chunk)`: the left fold of `RX_BYTE` over the bytes of a chunk (R191). Its events are the ones the state
gains, in order. -/
def feed : List Byte → State → Host.Outcome State Fault Refusal
  | [], s => .next s
  | d :: rest, s => andThen (rxByte d s) (feed rest)

/-- `RX_TIMEOUT`: inside a frame the frame is given up as truncated; otherwise nothing happens (R192). -/
def rxTimeout (s : State) : State :=
  if s.rxState = .awaitSync then s else { s with rxRemaining := 0 }.raiseFraming .truncated

end Sys2Proof.Machine
end

