-- ==== Sys2Proof/Machine/Operands.lean ====
section
/-! DEFINITION. Field serializers (00_scope.md R12), the mask bytes (30_encoding.md R78, R79), and the axis names of
the API boundary (R93). -/

namespace Sys2Proof.Machine

/-! ### Integers to bytes -/

/-- `le(n, v)`: the `n`-byte little-endian image of the integer `v`, reduced `mod 2^(8n)` (R12). -/
def le (n : Nat) (v : Int) : List Byte :=
  (List.range n).map fun i => (BitVec.ofInt (8 * n) v).extractLsb' (8 * i) 8

/-- `be(n, v)`: the same bytes, most significant first (R12). -/
def be (n : Nat) (v : Int) : List Byte := (le n v).reverse

/-- `u8(v)` (R12). -/
def u8 (v : Int) : List Byte := le 1 v

/-- `u16le(v)` (R12). -/
def u16le (v : Int) : List Byte := le 2 v

/-- `u16be(v)` (R12): only EepromRead's offset (R53). -/
def u16be (v : Int) : List Byte := be 2 v

/-- `u32le(v)` (R12). -/
def u32le (v : Int) : List Byte := le 4 v

/-- `i32le(v)` (R12): two's complement by the reduction. -/
def i32le (v : Int) : List Byte := le 4 v

/-! ### Mask bytes -/

/-- The byte of an `AxisSet`: `zext_8(m)`, bits 5 to 7 zero (R78). -/
def axisByte (axes : AxisSet) : Byte := axes.setWidth 8

/-- The byte of EnableDisableAxes: `(enable << ENABLE_BIT) | zext_8(axes)` (R79, R164). -/
def enableByte (axes : AxisSet) (enable : Bool) : Byte :=
  ((BitVec.ofBool enable).setWidth 8 <<< enableBit) ||| axisByte axes

/-! ### Axis names at the API boundary -/

/-- The axis a one-letter name stands for, in either case; `none` for any other name (R93). -/
def axisOfName (name : Char) : Option Axis :=
  match name with
  | 'x' | 'X' => some .x
  | 'y' | 'Y' => some .y
  | 'z' | 'Z' => some .z
  | 'a' | 'A' => some .a
  | 'b' | 'B' => some .b
  | _ => none

/-- The mask with the one bit of an axis: bit0=X, bit1=Y, bit2=Z, bit3=A, bit4=B (R78). -/
def axisBit : Axis → AxisSet
  | .x => 0b00001
  | .y => 0b00010
  | .z => 0b00100
  | .a => 0b01000
  | .b => 0b10000

/-- The mask of a collection of axis names; `none` (no descriptor is made) if one of them is no axis (R93). -/
def axisSetOfNames : List Char → Option AxisSet
  | [] => some 0
  | name :: rest =>
    match axisOfName name, axisSetOfNames rest with
    | some axis, some m => some (axisBit axis ||| m)
    | _, _ => none

end Sys2Proof.Machine
end

