-- ==== Sys2Proof/Machine/CommandsHigh.lean ====
section
/-! DEFINITION. The commands with ids 0x83 to 0x92 (43_commands_83_92.md R160 to R170). -/

namespace Sys2Proof.Machine

/-- `id` and `payload` of HomeAxesMinimum (R160). -/
def layoutHomeAxesMinimum (axes : AxisSet) (feedrate : Word) (timeoutSec : Half) : Layout where
  id := 0x83
  payload := [axisByte axes] ++ u32le feedrate.toNat ++ u16le timeoutSec.toNat

/-- HomeAxesMinimum: its frame is taken up for sending (R160, R124). -/
def execHomeAxesMinimum (axes : AxisSet) (feedrate : Word) (timeoutSec : Half)
    (s : State) : Host.Outcome State Fault Refusal :=
  accept (layoutHomeAxesMinimum axes feedrate timeoutSec) s

/-- `id` and `payload` of HomeAxesMaximum (R161). -/
def layoutHomeAxesMaximum (axes : AxisSet) (feedrate : Word) (timeoutSec : Half) : Layout where
  id := 0x84
  payload := [axisByte axes] ++ u32le feedrate.toNat ++ u16le timeoutSec.toNat

/-- HomeAxesMaximum: its frame is taken up for sending (R161, R124). -/
def execHomeAxesMaximum (axes : AxisSet) (feedrate : Word) (timeoutSec : Half)
    (s : State) : Host.Outcome State Fault Refusal :=
  accept (layoutHomeAxesMaximum axes feedrate timeoutSec) s

/-- `id` and `payload` of ChangeTool (R162). -/
def layoutChangeTool (toolId : Byte) : Layout := { id := 0x86, payload := u8 toolId.toNat }

/-- ChangeTool: its frame is taken up for sending (R162, R124). -/
def execChangeTool (toolId : Byte) (s : State) : Host.Outcome State Fault Refusal :=
  accept (layoutChangeTool toolId) s

/-- `id` and `payload` of WaitForToolReady (R163). -/
def layoutWaitForToolReady (toolId : Byte) (queryDelayMs timeoutSec : Half) : Layout where
  id := 0x87
  payload := u8 toolId.toNat ++ u16le queryDelayMs.toNat ++ u16le timeoutSec.toNat

/-- WaitForToolReady: its frame is taken up for sending (R163, R124). -/
def execWaitForToolReady (toolId : Byte) (queryDelayMs timeoutSec : Half)
    (s : State) : Host.Outcome State Fault Refusal :=
  accept (layoutWaitForToolReady toolId queryDelayMs timeoutSec) s

/-- `id` and `payload` of EnableDisableAxes (R164). -/
def layoutEnableDisableAxes (axes : AxisSet) (enable : Bool) : Layout where
  id := 0x89
  payload := [enableByte axes enable]

/-- EnableDisableAxes: its frame is taken up for sending (R164, R124). -/
def execEnableDisableAxes (axes : AxisSet) (enable : Bool) (s : State) : Host.Outcome State Fault Refusal :=
  accept (layoutEnableDisableAxes axes enable) s

/-- `id` and `payload` of QueueExtendedPointLegacy (R165). -/
def layoutQueueExtendedPointLegacy (x y z a b : Word) (feedrateUs : Word) : Layout where
  id := 0x8B
  payload := i32le x.toInt ++ i32le y.toInt ++ i32le z.toInt ++ i32le a.toInt ++ i32le b.toInt ++
    u32le feedrateUs.toNat

/-- QueueExtendedPointLegacy: its frame is taken up for sending (R165, R124). -/
def execQueueExtendedPointLegacy (x y z a b : Word) (feedrateUs : Word)
    (s : State) : Host.Outcome State Fault Refusal :=
  accept (layoutQueueExtendedPointLegacy x y z a b feedrateUs) s

/-- `id` and `payload` of SetExtendedPosition (R166). -/
def layoutSetExtendedPosition (x y z a b : Word) : Layout where
  id := 0x8C
  payload := i32le x.toInt ++ i32le y.toInt ++ i32le z.toInt ++ i32le a.toInt ++ i32le b.toInt

/-- SetExtendedPosition: its frame is taken up for sending (R166, R124). -/
def execSetExtendedPosition (x y z a b : Word) (s : State) : Host.Outcome State Fault Refusal :=
  accept (layoutSetExtendedPosition x y z a b) s

/-- `id` and `payload` of WaitForPlatformReady (R167). -/
def layoutWaitForPlatformReady (toolId : Byte) (queryDelayMs timeoutSec : Half) : Layout where
  id := 0x8D
  payload := u8 toolId.toNat ++ u16le queryDelayMs.toNat ++ u16le timeoutSec.toNat

/-- WaitForPlatformReady: its frame is taken up for sending (R167, R124). -/
def execWaitForPlatformReady (toolId : Byte) (queryDelayMs timeoutSec : Half)
    (s : State) : Host.Outcome State Fault Refusal :=
  accept (layoutWaitForPlatformReady toolId queryDelayMs timeoutSec) s

/-- `id` and `payload` of QueueExtendedPoint (R168). -/
def layoutQueueExtendedPoint (x y z a b : Word) (durationUs : Word) (axes : AxisSet) : Layout where
  id := 0x8E
  payload := i32le x.toInt ++ i32le y.toInt ++ i32le z.toInt ++ i32le a.toInt ++ i32le b.toInt ++
    u32le durationUs.toNat ++ [axisByte axes]

/-- QueueExtendedPoint: its frame is taken up for sending (R168, R124). -/
def execQueueExtendedPoint (x y z a b : Word) (durationUs : Word) (axes : AxisSet)
    (s : State) : Host.Outcome State Fault Refusal :=
  accept (layoutQueueExtendedPoint x y z a b durationUs axes) s

/-- `id` and `payload` of SetRgbLed (R169, R83). -/
def layoutSetRgbLed (red green blue blinkRate : Byte) : Layout where
  id := 0x92
  payload := u8 red.toNat ++ u8 green.toNat ++ u8 blue.toNat ++ u8 blinkRate.toNat ++ [0x00]

/-- SetRgbLed: its frame is taken up for sending (R169, R83, R124). -/
def execSetRgbLed (red green blue blinkRate : Byte) (s : State) : Host.Outcome State Fault Refusal :=
  accept (layoutSetRgbLed red green blue blinkRate) s

/-- `id` and `payload` of ToolAction (R170). -/
def layoutToolAction (toolId actionId : Byte) (payload : List Byte) : Layout where
  id := 0x88
  payload := u8 toolId.toNat ++ u8 actionId.toNat ++ payload

/-- ToolAction: its frame is taken up for sending (R170, R124). -/
def execToolAction (toolId actionId : Byte) (payload : List Byte) (s : State) : Host.Outcome State Fault Refusal :=
  accept (layoutToolAction toolId actionId payload) s

end Sys2Proof.Machine
end

