-- ==== Sys2Proof/Machine/CommandsLow.lean ====
section
/-! DEFINITION. The commands with ids 0x00 to 0x17 (42_commands_00_17.md R140 to R153). -/

namespace Sys2Proof.Machine

/-- `id` and `payload` of GetVersion (R140). -/
def layoutGetVersion : Layout := { id := 0x00, payload := [] }

/-- GetVersion: its frame is taken up for sending (R140, R124). -/
def execGetVersion (s : State) : Host.Outcome State Fault Refusal :=
  accept layoutGetVersion s

/-- `id` and `payload` of Init (R141). -/
def layoutInit : Layout := { id := 0x01, payload := [] }

/-- Init: its frame is taken up for sending (R141, R124). -/
def execInit (s : State) : Host.Outcome State Fault Refusal :=
  accept layoutInit s

/-- `id` and `payload` of AvailableBufferSize (R142). -/
def layoutAvailableBufferSize : Layout := { id := 0x02, payload := [] }

/-- AvailableBufferSize: its frame is taken up for sending (R142, R124). -/
def execAvailableBufferSize (s : State) : Host.Outcome State Fault Refusal :=
  accept layoutAvailableBufferSize s

/-- `id` and `payload` of ClearBuffer (R143). -/
def layoutClearBuffer : Layout := { id := 0x03, payload := [] }

/-- ClearBuffer: its frame is taken up for sending (R143, R124). -/
def execClearBuffer (s : State) : Host.Outcome State Fault Refusal :=
  accept layoutClearBuffer s

/-- `id` and `payload` of Abort (R144). -/
def layoutAbort : Layout := { id := 0x07, payload := [] }

/-- Abort: its frame is taken up for sending (R144, R124). -/
def execAbort (s : State) : Host.Outcome State Fault Refusal :=
  accept layoutAbort s

/-- `id` and `payload` of Pause (R145). -/
def layoutPause : Layout := { id := 0x08, payload := [] }

/-- Pause: its frame is taken up for sending (R145, R124). -/
def execPause (s : State) : Host.Outcome State Fault Refusal :=
  accept layoutPause s

/-- `id` and `payload` of ToolQuery (R146). -/
def layoutToolQuery (toolIndex : Byte) (subQuery : List Byte) : Layout where
  id := 0x0A
  payload := u8 toolIndex.toNat ++ subQuery

/-- ToolQuery: its frame is taken up for sending (R146, R124). -/
def execToolQuery (toolIndex : Byte) (subQuery : List Byte) (s : State) : Host.Outcome State Fault Refusal :=
  accept (layoutToolQuery toolIndex subQuery) s

/-- `id` and `payload` of IsFinished (R147). -/
def layoutIsFinished : Layout := { id := 0x0B, payload := [] }

/-- IsFinished: its frame is taken up for sending (R147, R124). -/
def execIsFinished (s : State) : Host.Outcome State Fault Refusal :=
  accept layoutIsFinished s

/-- `id` and `payload` of EepromRead (R148, R53). -/
def layoutEepromRead (offset : Half) (nBytes : Byte) : Layout where
  id := 0x0C
  payload := u16be offset.toNat ++ u8 nBytes.toNat

/-- EepromRead: its frame is taken up for sending (R148, R53, R124). -/
def execEepromRead (offset : Half) (nBytes : Byte) (s : State) : Host.Outcome State Fault Refusal :=
  accept (layoutEepromRead offset nBytes) s

/-- `id` and `payload` of EepromWrite (R149). -/
def layoutEepromWrite (offset : Half) (nBytes : Byte) (data : List Byte) : Layout where
  id := 0x0D
  payload := u16le offset.toNat ++ u8 nBytes.toNat ++ data

/-- EepromWrite: its frame is taken up for sending (R149, R124). -/
def execEepromWrite (offset : Half) (nBytes : Byte) (data : List Byte)
    (s : State) : Host.Outcome State Fault Refusal :=
  accept (layoutEepromWrite offset nBytes data) s

/-- `id` and `payload` of Reset (R150). -/
def layoutReset : Layout := { id := 0x11, payload := [] }

/-- Reset: its frame is taken up for sending (R150, R124). -/
def execReset (s : State) : Host.Outcome State Fault Refusal :=
  accept layoutReset s

/-- `id` and `payload` of GetCurrentPosition (R151). -/
def layoutGetCurrentPosition : Layout := { id := 0x15, payload := [] }

/-- GetCurrentPosition: its frame is taken up for sending (R151, R124). -/
def execGetCurrentPosition (s : State) : Host.Outcome State Fault Refusal :=
  accept layoutGetCurrentPosition s

/-- `id` and `payload` of Delay (R152). -/
def layoutDelay (delayId : Byte) (durationUs : Word) : Layout := { id := delayId, payload := u32le durationUs.toNat }

/-- Delay: its frame is taken up for sending (R152, R124). -/
def execDelay (durationUs : Word) (s : State) : Host.Outcome State Fault Refusal :=
  accept (layoutDelay s.config.delayId durationUs) s

/-- `id` and `payload` of GetMotherboardStatus (R153). -/
def layoutGetMotherboardStatus : Layout := { id := 0x17, payload := [] }

/-- GetMotherboardStatus: its frame is taken up for sending (R153, R124). -/
def execGetMotherboardStatus (s : State) : Host.Outcome State Fault Refusal :=
  accept layoutGetMotherboardStatus s

end Sys2Proof.Machine
end

