-- ==== Sys2Proof/Machine/Dispatch.lean ====
section
/-! DEFINITION. One arm per command: `CMD_ACCEPT` of the decoded command (41_frame_serializer.md R123 to R125). -/

namespace Sys2Proof.Machine

/-- The meaning of one command: its `CMD_ACCEPT` step. -/
def exec (i : Instr) (s : State) : Host.Outcome State Fault Refusal :=
  match i with
  | .getVersion => Sys2Proof.Machine.execGetVersion s
  | .init => Sys2Proof.Machine.execInit s
  | .availableBufferSize => Sys2Proof.Machine.execAvailableBufferSize s
  | .clearBuffer => Sys2Proof.Machine.execClearBuffer s
  | .abort => Sys2Proof.Machine.execAbort s
  | .pause => Sys2Proof.Machine.execPause s
  | .toolQuery toolIndex subQuery => Sys2Proof.Machine.execToolQuery toolIndex subQuery s
  | .isFinished => Sys2Proof.Machine.execIsFinished s
  | .eepromRead offset nBytes => Sys2Proof.Machine.execEepromRead offset nBytes s
  | .eepromWrite offset nBytes data => Sys2Proof.Machine.execEepromWrite offset nBytes data s
  | .reset => Sys2Proof.Machine.execReset s
  | .getCurrentPosition => Sys2Proof.Machine.execGetCurrentPosition s
  | .delay durationUs => Sys2Proof.Machine.execDelay durationUs s
  | .getMotherboardStatus => Sys2Proof.Machine.execGetMotherboardStatus s
  | .homeAxesMinimum axes feedrate timeoutSec => Sys2Proof.Machine.execHomeAxesMinimum axes feedrate timeoutSec s
  | .homeAxesMaximum axes feedrate timeoutSec => Sys2Proof.Machine.execHomeAxesMaximum axes feedrate timeoutSec s
  | .changeTool toolId => Sys2Proof.Machine.execChangeTool toolId s
  | .waitForToolReady toolId queryDelayMs timeoutSec => Sys2Proof.Machine.execWaitForToolReady toolId queryDelayMs timeoutSec s
  | .enableDisableAxes axes enable => Sys2Proof.Machine.execEnableDisableAxes axes enable s
  | .queueExtendedPointLegacy x y z a b feedrateUs => Sys2Proof.Machine.execQueueExtendedPointLegacy x y z a b feedrateUs s
  | .setExtendedPosition x y z a b => Sys2Proof.Machine.execSetExtendedPosition x y z a b s
  | .waitForPlatformReady toolId queryDelayMs timeoutSec => Sys2Proof.Machine.execWaitForPlatformReady toolId queryDelayMs timeoutSec s
  | .queueExtendedPoint x y z a b durationUs axes => Sys2Proof.Machine.execQueueExtendedPoint x y z a b durationUs axes s
  | .setRgbLed red green blue blinkRate => Sys2Proof.Machine.execSetRgbLed red green blue blinkRate s
  | .toolAction toolId actionId payload => Sys2Proof.Machine.execToolAction toolId actionId payload s

end Sys2Proof.Machine
end

