-- ==== Sys2Proof/Machine/Flags.lean ====
section
/-! DEFINITION. The status outputs, all functions of the state (10_state.md R36, R42, R43): the block has the one flag
`tx_busy` and no condition codes (R22). -/

namespace Sys2Proof.Machine

/-- `cmd_ready`: the negation of `tx_busy` (R36). -/
def State.cmdReady (s : State) : Bool := !s.txBusy

/-- `rx_idle`: true exactly when `rx_state = AwaitSync` (R36). -/
def State.rxIdle (s : State) : Bool := s.rxState == .awaitSync

/-- `tx_valid`: equal to `tx_busy` (R42). -/
def State.txValid (s : State) : Bool := s.txBusy

/-- `tx_data`: `tx_buf[tx_idx]` when `tx_busy` (R42); no value otherwise. -/
def State.txData (s : State) : Option Byte := if s.txBusy then s.txBuf.read s.txIdx else none

/-- `tx_last`: true when `tx_busy` and `tx_idx = tx_len - 1` (R42). -/
def State.txLast (s : State) : Bool := s.txBusy && s.txIdx + 1 == s.txLen

/-- `rx_ready`: constant 1 (R43). -/
def State.rxReady (_ : State) : Bool := true

/-- `rx_rd_data` at `rx_rd_addr` (R45): the body's byte there while the window of R32 is open. A read outside the
window or beyond the body has no value (decision D11 of 92_eei_decisions.md; log entry 15). -/
def State.rxRdData (s : State) (rdAddr : Byte) : Option Byte :=
  if rdAddr.toNat < s.rxWindow then s.rxBuf.read rdAddr.toNat else none

end Sys2Proof.Machine
end

