-- ==== Sys2Proof/Machine/Serializer.lean ====
section
/-! DEFINITION. The step `TX_EMIT` of the frame serializer (41_frame_serializer.md R126, R127). -/

namespace Sys2Proof.Machine

/-- `TxPut(b)`: one byte on the outbound stream (20_memory.md R58). -/
def State.txPut (b : Byte) (s : State) : State := { s with outbound := s.outbound ++ [b] }

/-- The position after a byte has gone: on to the next, or idle after the last (R126). -/
def State.txAdvance (s : State) : State :=
  if s.txIdx + 1 = s.txLen then { s with txBusy := false, txIdx := 0 } else { s with txIdx := s.txIdx + 1 }

/-- `TX_EMIT` (R126), the transport being ready: one byte of the frame goes out. Not enabled while `tx_busy` is
false: nothing happens. -/
def txEmit (s : State) : Host.Outcome State Fault Refusal :=
  if s.txBusy then
    match s.txBuf.read s.txIdx with
    | some b => .next (s.txPut b).txAdvance
    | none => .fault .txByteUnwritten
  else .next s

end Sys2Proof.Machine
end

