-- ==== Sys2Proof/Machine/Agents.lean ====
section
/-! DEFINITION. The five steps of 00_scope.md R14 as the scheduled agents take them. -/

namespace Sys2Proof.Machine

/-- `CMD_ACCEPT(d)` (41_frame_serializer.md R123 to R125): not enabled while `tx_busy`; a descriptor the decoder
refuses is refused and writes no state; any other runs as the command it decodes to. -/
def cmdAccept (d : Descriptor) (s : State) : Host.Outcome State Fault Refusal :=
  if s.txBusy then .next s
  else
    match decode d with
    | .ok i => exec i s
    | .error reason => .next (s.emit (.cmdRefused reason))

/-- `RX_BYTE` on the inbound stream: its front byte is taken, and never seen again (20_memory.md R58, 44_deframer.md
R190). With no byte on the stream nothing happens. -/
def takeInbound (s : State) : Host.Outcome State Fault Refusal :=
  match s.inbound with
  | [] => .next s
  | d :: rest => rxByte d { s with inbound := rest }

/-- One scheduled step. -/
def perform (a : Action) (s : State) : Host.Outcome State Fault Refusal :=
  match a with
  | .cmdAccept d => cmdAccept d s
  | .txEmit => txEmit s
  | .rxByte => takeInbound s
  | .rxTimeout => .next (rxTimeout s)
  | .reset => .next s.resetBlock

/-- The state with the pulses of the step before low again (10_state.md R45) and the schedule moved on to `rest`. -/
def State.beginStep (rest : List Action) (s : State) : State := { s with pulses := [], schedule := rest }

/-- The state with this descriptor offered to an idle transmitter as the very next step (log entry 8). -/
def State.offer (d : Descriptor) (s : State) : State :=
  { s with txBusy := false, txIdx := 0, schedule := .cmdAccept d :: s.schedule }

end Sys2Proof.Machine
end

