-- ==== Sys2Proof/Machine/Step.lean ====
section
/-! DEFINITION. One step of the machine: the head of the schedule is performed (00_scope.md R14). -/

namespace Sys2Proof.Machine

/-- One step. With nothing scheduled no agent moves: the block waits (10_state.md R47), its pulses low. -/
def step (s : State) : Host.Outcome State Fault Refusal :=
  match s.schedule with
  | [] => .next (s.beginStep [])
  | a :: rest => perform a (s.beginStep rest)

/-- `s` with the instruction of the table word `w` of `nbits` bits offered on the command port of an idle
transmitter, so that the very next step is its `CMD_ACCEPT`. Log entry 8. -/
def State.withFetchWord (s : State) (nbits w : Nat) : State := s.offer (tableDescriptor nbits w)

end Sys2Proof.Machine
end

