-- ==== Sys2Proof/Machine/Catalog.lean ====
section
/-! DEFINITION. The catalog as functions: the layout and the frame of every command (30_encoding.md R80,
41_frame_serializer.md R121). The machine runs each command by its own meaning; these name the same bytes for all. -/

namespace Sys2Proof.Machine

/-- `id(cmd)` and `payload(cmd)` of every command, in an instance with these constants (R121). -/
def layoutOf (config : Config) : Instr → Layout
  | .getVersion => layoutGetVersion
  | .init => layoutInit
  | .availableBufferSize => layoutAvailableBufferSize
  | .clearBuffer => layoutClearBuffer
  | .abort => layoutAbort
  | .pause => layoutPause
  | .toolQuery toolIndex subQuery => layoutToolQuery toolIndex subQuery
  | .isFinished => layoutIsFinished
  | .eepromRead offset nBytes => layoutEepromRead offset nBytes
  | .eepromWrite offset nBytes data => layoutEepromWrite offset nBytes data
  | .reset => layoutReset
  | .getCurrentPosition => layoutGetCurrentPosition
  | .delay durationUs => layoutDelay config.delayId durationUs
  | .getMotherboardStatus => layoutGetMotherboardStatus
  | .homeAxesMinimum axes feedrate timeoutSec => layoutHomeAxesMinimum axes feedrate timeoutSec
  | .homeAxesMaximum axes feedrate timeoutSec => layoutHomeAxesMaximum axes feedrate timeoutSec
  | .changeTool toolId => layoutChangeTool toolId
  | .waitForToolReady toolId queryDelayMs timeoutSec => layoutWaitForToolReady toolId queryDelayMs timeoutSec
  | .enableDisableAxes axes enable => layoutEnableDisableAxes axes enable
  | .queueExtendedPointLegacy x y z a b feedrateUs => layoutQueueExtendedPointLegacy x y z a b feedrateUs
  | .setExtendedPosition x y z a b => layoutSetExtendedPosition x y z a b
  | .waitForPlatformReady toolId queryDelayMs timeoutSec => layoutWaitForPlatformReady toolId queryDelayMs timeoutSec
  | .queueExtendedPoint x y z a b durationUs axes => layoutQueueExtendedPoint x y z a b durationUs axes
  | .setRgbLed red green blue blinkRate => layoutSetRgbLed red green blue blinkRate
  | .toolAction toolId actionId payload => layoutToolAction toolId actionId payload

/-- `encode(cmd) = Frame(id(cmd), payload(cmd))`: the bytes of a command on the wire (R121). -/
def frameOf (config : Config) (i : Instr) : List Byte := frame (layoutOf config i)

end Sys2Proof.Machine
end

