-- ==== Sys2Proof/Machine/Ports.lean ====
section
/-! DEFINITION. The hardware binding: the inputs of one clock edge, the atomic steps it performs, and the event
outputs with their codes (10_state.md R40 to R46, 60_exceptions.md R215). -/

namespace Sys2Proof.Machine

/-- The inputs sampled at one rising edge (R40 to R44). -/
structure PortInputs where
  rst : Bool
  cmdValid : Bool
  cmd : Descriptor
  txReady : Bool
  rxValid : Bool
  rxData : Byte
  rxTimeout : Bool
  deriving DecidableEq, Repr

/-- The TX agent's step at an edge: `CMD_ACCEPT` when `cmd_valid` and `cmd_ready` (R41), `TX_EMIT` when `tx_valid`
and `tx_ready` (R42); they cannot share an edge (R46). -/
def txEdge (p : PortInputs) (s : State) : Host.Outcome State Fault Refusal :=
  if p.cmdValid && s.cmdReady then cmdAccept p.cmd s
  else if s.txValid && p.txReady then txEmit s
  else .next s

/-- The RX agent's step on the data port at an edge: `RX_BYTE` when `rx_valid` (R43). -/
def rxDataEdge (p : PortInputs) (s : State) : Host.Outcome State Fault Refusal :=
  if p.rxValid then rxByte p.rxData s else .next s

/-- The RX agent's steps at an edge: `RX_BYTE`, then `RX_TIMEOUT` on the state the byte left (R44). -/
def rxEdge (p : PortInputs) (s : State) : Host.Outcome State Fault Refusal :=
  andThen (rxDataEdge p s) fun t => .next (if p.rxTimeout then rxTimeout t else t)

/-- One rising edge: `RESET` alone when `rst` (R40), else at most three atomic steps (R46). The pulses of the edge
before go low (R45). That a TX-side event stands before an RX-side one of the same edge is log entry 16. -/
def clockEdge (p : PortInputs) (s : State) : Host.Outcome State Fault Refusal :=
  if p.rst then .next s.resetBlock
  else andThen (txEdge p { s with pulses := [] }) (rxEdge p)

/-- `cmd_refuse_reason[0]` (R41, R215). -/
def refuseCode : RefuseReason → BitVec 1
  | .badTag => 0
  | .tooLong => 1

/-- `evt_reason[1:0]`; 3 is never driven (R45, R215). -/
def framingCode : FramingReason → BitVec 2
  | .badChecksum => 0
  | .badLength => 1
  | .truncated => 2

/-- The information of the `evt_complete` pulse (R45). -/
structure CompletePulse where
  /-- `evt_len`, the body length. -/
  len : Byte
  /-- `evt_status`, body byte 0. -/
  status : Byte
  /-- `evt_ok`, 1 for Acknowledged and 0 for DeviceRejected. -/
  ok : Bool
  deriving DecidableEq, Repr

/-- The pulse of a completed response (R45, R215). -/
def completePulse : Response → CompletePulse
  | .acknowledged payload => { len := BitVec.ofNat 8 payload.length, status := statusOk, ok := true }
  | .deviceRejected code payload => { len := BitVec.ofNat 8 payload.length, status := code, ok := false }

/-- The event outputs in one clock (R41, R45): each pulse with its information, or low. -/
structure EventOutputs where
  cmdRefused : Option (BitVec 1)
  evtDiscard : Option Byte
  evtComplete : Option CompletePulse
  evtError : Option (BitVec 2)
  deriving DecidableEq, Repr

/-- All pulses low. -/
def EventOutputs.low : EventOutputs := { cmdRefused := none, evtDiscard := none, evtComplete := none, evtError := none }

/-- The outputs with the pulse of one more event raised. -/
def EventOutputs.raise (o : EventOutputs) : Event → EventOutputs
  | .cmdRefused reason => { o with cmdRefused := some (refuseCode reason) }
  | .rxDiscard byte => { o with evtDiscard := some byte }
  | .complete response => { o with evtComplete := some (completePulse response) }
  | .framingError reason => { o with evtError := some (framingCode reason) }

/-- The event outputs of a state: the pulses of its latest step or edge (R45). -/
def State.eventOutputs (s : State) : EventOutputs := s.pulses.foldl EventOutputs.raise .low

end Sys2Proof.Machine
end

