-- ==== Sys2Proof/Safety.lean ====
section
/-! DEFINITION. What claims are stated in: the invariants of the spec, a safe step, a run that is over, and what it
means that a command's frame has been taken up. -/

namespace Sys2Proof.Machine

/-- Both buffers are in canonical form and inside their sizes (20_memory.md R50). -/
structure State.BuffersWf (s : State) : Prop where
  tx : Memory.wf txBufSize s.txBuf
  rx : Memory.wf rxBufSize s.rxBuf

/-- The invariant of the TX state (10_state.md R24, R26): while busy the buffer holds a whole frame and the position
is inside it; while idle the position is 0. -/
structure State.TxInv (s : State) : Prop where
  len : s.txLen ≤ txBufSize
  busy : s.txBusy = true →
    s.txIdx < s.txLen ∧
      ∃ l : Layout, l.payload.length ≤ txPayloadMax ∧ s.txLen = l.payload.length + 4 ∧
        s.txBuf.readBytes 0 s.txLen = some (frame l)
  idle : s.txBusy = false → s.txIdx = 0

/-- The body bytes received so far of the frame under way are in `rx_buf`, and `rx_crc` is their checksum
(10_state.md R30). -/
def State.RxBodyHeld (s : State) : Prop :=
  ∃ got : List Byte, s.rxBuf.readBytes 0 (s.rxLen - s.rxRemaining) = some got ∧ s.rxCrc = crc8 got

/-- The invariant of the RX state (10_state.md R28 to R30, R33), and that every byte inside the host's window is there
to be read (R32; log entry 15). -/
structure State.RxInv (s : State) : Prop where
  len : s.rxLen ≤ rxLenMax
  search : s.rxState = .awaitSync ∨ s.rxState = .awaitLength → s.rxRemaining = 0
  payload : s.rxState = .awaitPayload → 1 ≤ s.rxRemaining ∧ s.rxRemaining ≤ s.rxLen ∧ s.RxBodyHeld
  checksum : s.rxState = .awaitChecksum → s.rxRemaining = 0 ∧ 1 ≤ s.rxLen ∧ s.RxBodyHeld
  window : s.rxWindow ≤ rxBufSize ∧ ∃ body, s.rxBuf.readBytes 0 s.rxWindow = some body

/-- The invariant of the block: what the spec says is true after every step. -/
structure State.Inv (s : State) : Prop where
  buffers : s.BuffersWf
  tx : s.TxInv
  rx : s.RxInv

/-- A state is safe when the next step answers a next state: no fault, no refusal (60_exceptions.md R220). -/
def State.Safe (s : State) : Prop := ∃ t, step s = .next t

/-- `n` steps in a row, ending at the first fault or refusal. -/
def steps : Nat → State → Host.Outcome State Fault Refusal
  | 0, s => .next s
  | n + 1, s => andThen (step s) (steps n)

/-- The body a response hands over. -/
def Response.body : Response → List Byte
  | .acknowledged payload => payload
  | .deviceRejected _ payload => payload

/-- The first three bytes of a frame as the 24-bit number of opcode_table.json (30_encoding.md R91). -/
def headerOf : List Byte → Option (BitVec 24)
  | b0 :: b1 :: b2 :: _ => some (b0 ++ b1 ++ b2)
  | _ => none

/-- An action that presents a descriptor. -/
def Action.isCmdAccept : Action → Bool
  | .cmdAccept _ => true
  | .txEmit | .rxByte | .rxTimeout | .reset => false

/-- A run is over (70_reset_and_hazards.md R244): nothing being sent, nothing being received, no descriptor
presented or queued, no inbound byte left. That nothing is in flight is the host's to know and is no part of it (R225). -/
def State.runOver (s : State) : Bool :=
  !s.txBusy && s.rxState == .awaitSync && !s.schedule.any Action.isCmdAccept && s.inbound.isEmpty

/-- `t` is `s` with the frame `f` taken up for sending, and nothing else changed: `tx_buf[0 ..]` holds `f`, every
other byte of it reads as before, `tx_len`, `tx_idx` and `tx_busy` are written (41_frame_serializer.md R124). -/
structure State.TakesUp (s : State) (f : List Byte) (t : State) : Prop where
  holds : t.txBuf.readBytes 0 f.length = some f
  outside : ∀ a, f.length ≤ a → t.txBuf.read a = s.txBuf.read a
  rest : t = { s with txBuf := t.txBuf, txLen := f.length, txIdx := 0, txBusy := true }

/-- `t` is `s` with the event `e` raised, and nothing else changed. -/
def State.Raises (s : State) (e : Event) (t : State) : Prop :=
  t = { s with pulses := s.pulses ++ [e], events := s.events ++ [e] }

/-- The RX registers, the body buffer and the host's window on it are the same in both states. -/
structure State.SameRx (s t : State) : Prop where
  state : t.rxState = s.rxState
  len : t.rxLen = s.rxLen
  remaining : t.rxRemaining = s.rxRemaining
  crc : t.rxCrc = s.rxCrc
  buf : t.rxBuf = s.rxBuf
  window : t.rxWindow = s.rxWindow

/-- The TX registers and the frame buffer are the same in both states. -/
structure State.SameTx (s t : State) : Prop where
  busy : t.txBusy = s.txBusy
  idx : t.txIdx = s.txIdx
  len : t.txLen = s.txLen
  buf : t.txBuf = s.txBuf

/-- The two states differ at most in the events they recorded. -/
def State.SameButEvents (s t : State) : Prop := t = { s with pulses := t.pulses, events := t.events }

end Sys2Proof.Machine
end

