-- ==== Sys2Proof/Certificates/Slice0/Obligations.lean ====
section
/-! DEFINITION. The statements about the S3G packet framer, for the provers. -/

open Sys2Proof Sys2Proof.Machine

/-! ### The checksum generator (40_checksum.md) -/

/-- R102: `crc_bit`, with its six corner cases. -/
def Obligations.CrcBitShiftsAndMixes : Prop :=
  (∀ (c : Byte) (b : Bool), (c.getLsbD 0 ^^ b) = true → crcBit c b = (c >>> 1) ^^^ 0x8C) ∧
  (∀ (c : Byte) (b : Bool), (c.getLsbD 0 ^^ b) = false → crcBit c b = c >>> 1) ∧
  crcBit 0x00 false = 0x00 ∧ crcBit 0x00 true = 0x8C ∧ crcBit 0x01 true = 0x00 ∧ crcBit 0x01 false = 0x8C ∧
  crcBit 0xFF false = 0xF3 ∧ crcBit 0xFF true = 0x7F

/-- R101: `crc_byte` folds the eight bits, least significant first; it is the shifting form and the table form as
well, and depends only on `c ^ d`. -/
def Obligations.CrcByteFormsAgree : Prop :=
  (∀ c d : Byte, crcByte c d =
    crcBit (crcBit (crcBit (crcBit (crcBit (crcBit (crcBit (crcBit c (d.getLsbD 0)) (d.getLsbD 1)) (d.getLsbD 2))
      (d.getLsbD 3)) (d.getLsbD 4)) (d.getLsbD 5)) (d.getLsbD 6)) (d.getLsbD 7)) ∧
  (∀ c d : Byte, crcByteShifting 8 c d = crcByte c d) ∧
  crcTable.length = 256 ∧
  (∀ c d : Byte, crcTable[(c ^^^ d).toNat]? = some (crcByte c d)) ∧
  (∀ c : Byte, crcByte c c = 0x00) ∧
  crcByte 0x00 0x00 = 0x00 ∧ crcByte 0x00 0x92 = 0xAD ∧
  [false, true, false, false, true, false, false, true].scanl crcBit 0x00 =
    [0x00, 0x00, 0x8C, 0x46, 0x23, 0x11, 0x84, 0x42, 0xAD]

/-- R100: `crc8` starts from zero and folds the bytes in index order; zero bytes at the front are not seen. -/
def Obligations.CrcFoldsTheSequence : Prop :=
  crc8 [] = 0x00 ∧
  (∀ (s : List Byte) (d : Byte), crc8 (s ++ [d]) = crcByte (crc8 s) d) ∧
  (∀ (n : Nat) (s : List Byte), crc8 (List.replicate n 0x00 ++ s) = crc8 s) ∧
  (∀ n : Nat, crc8 (List.replicate n 0x00) = 0x00) ∧
  crc8 [0x92, 0xFF, 0x00, 0x00, 0x00, 0x00] = 0x16

/-- Linearity of the checksum (40_checksum.md, Laws). -/
def Obligations.CrcIsLinear : Prop :=
  ∀ s t : List Byte, s.length = t.length → crc8 (List.zipWith (· ^^^ ·) s t) = crc8 s ^^^ crc8 t

/-- No single flipped bit of a sequence leaves its checksum unchanged (40_checksum.md, Laws). -/
def Obligations.CrcSeesEverySingleBitFlip : Prop :=
  ∀ (s : List Byte) (k j : Nat), k < s.length → j < 8 →
    crc8 (s.modify k fun b => b ^^^ (1#8 <<< j)) ≠ crc8 s

/-- A sequence with its own checksum appended has checksum zero (40_checksum.md, Laws). -/
def Obligations.CrcResidueIsZero : Prop :=
  ∀ s : List Byte, crc8 (s ++ [crc8 s]) = 0x00

/-! ### Field serializers and masks (00_scope.md, 30_encoding.md) -/

/-- R12: `le` gives the bytes of `v mod 2^(8n)`, least significant first, for every integer; `be` reverses them; the
named serializers are these at their widths. -/
def Obligations.FieldSerializersReduceModulo : Prop :=
  (∀ (n : Nat) (v : Int), (le n v).length = n) ∧
  (∀ (n : Nat) (v : Int) (i : Nat), i < n →
    ∃ b, (le n v)[i]? = some b ∧ b.toNat = (v % 2 ^ (8 * n)).toNat / 2 ^ (8 * i) % 256) ∧
  (∀ (n : Nat) (v : Int), be n v = (le n v).reverse) ∧
  (∀ (n : Nat) (v : Int), le n (v % 2 ^ (8 * n)) = le n v) ∧
  (∀ v : Int, u8 v = le 1 v ∧ u16le v = le 2 v ∧ u16be v = be 2 v ∧ u32le v = le 4 v ∧ i32le v = le 4 v)

/-- R78: the byte of an AxisSet has the mask in bits 4..0 and zeros above. -/
def Obligations.AxisByteIsTheMask : Prop :=
  (∀ (m : AxisSet) (i : Nat), i < 5 → (axisByte m).getLsbD i = m.getLsbD i) ∧
  (∀ (m : AxisSet) (i : Nat), 5 ≤ i → (axisByte m).getLsbD i = false) ∧
  axisBit .x = 0b00001 ∧ axisBit .y = 0b00010 ∧ axisBit .z = 0b00100 ∧ axisBit .a = 0b01000 ∧
  axisBit .b = 0b10000 ∧
  axisByte 0b11111 = 0x1F ∧ axisByte 0 = 0x00 ∧ axisByte (axisBit .x ||| axisBit .y) = 0x03

/-- Axis names at the API boundary (decision D16 of 92_eei_decisions.md): order and case do not matter, a repeated
name counts once, an unknown name makes no descriptor, and each named axis has its bit. -/
def Obligations.AxisNamesIgnoreOrderAndCase : Prop :=
  (∀ l l' : List Char, l.Perm l' → axisSetOfNames l = axisSetOfNames l') ∧
  (∀ l : List Char, axisSetOfNames (l.map Char.toUpper) = axisSetOfNames l) ∧
  (∀ (l : List Char) (c : Char), c ∈ l → axisSetOfNames (c :: l) = axisSetOfNames l) ∧
  axisSetOfNames [] = some 0 ∧
  (∀ l : List Char, axisSetOfNames l = none ↔ ∃ c ∈ l, axisOfName c = none) ∧
  (∀ (l : List Char) (m : AxisSet) (axis : Axis), axisSetOfNames l = some m →
    (m &&& axisBit axis = axisBit axis ↔ ∃ c ∈ l, axisOfName c = some axis))

/-! ### Descriptors and frames -/

/-- R120: the frame of an id and a payload that fits: sync, length, body, check, and nothing else. -/
def Obligations.FrameHasItsFiveParts : Prop :=
  (∀ l : Layout, l.payload.length ≤ 254 →
    (frame l).length = l.payload.length + 4 ∧
    (frame l)[0]? = some 0xD5 ∧
    (∃ n : Byte, (frame l)[1]? = some n ∧ n.toNat = 1 + l.payload.length) ∧
    (frame l)[2]? = some l.id ∧
    ((frame l).drop 3).take l.payload.length = l.payload ∧
    (frame l)[l.payload.length + 3]? = some (crc8 (l.id :: l.payload))) ∧
  (∀ id : Byte, frame { id, payload := [] } = [0xD5, 0x01, id, crc8 [id]]) ∧
  frame { id := 0x00, payload := [] } = [0xD5, 0x01, 0x00, 0x00] ∧
  frame { id := 0x92, payload := [0xFF, 0, 0, 0, 0] } = [0xD5, 0x06, 0x92, 0xFF, 0x00, 0x00, 0x00, 0x00, 0x16]

/-- Words of opcode_table.json decode to their rows' commands. The matches are those of 30_encoding.md section 6, which
says that they are not a decoder; reading a word as a command with zero operands, the string length from the length
byte, and a word no row covers as refused are the model's choice (log entry 8). -/
def Obligations.TableWordsDecodeToTheirRows : Prop :=
  decodeTableWord 24 0xD50100 = some .getVersion ∧
  decodeTableWord 24 0xD50107 = some .abort ∧
  decodeTableWord 24 0xD5020A = some (.toolQuery 0 []) ∧
  decodeTableWord 24 0xD5040C = some (.eepromRead 0 0) ∧
  decodeTableWord 24 0xD5060D = some (.eepromWrite 0 0 [0, 0]) ∧
  decodeTableWord 24 0xD50115 = some .getCurrentPosition ∧
  decodeTableWord 24 0xD50515 = some (.delay 0) ∧
  decodeTableWord 24 0xD50289 = some (.enableDisableAxes 0 false) ∧
  decodeTableWord 24 0xD51A8E = some (.queueExtendedPoint 0 0 0 0 0 0 0) ∧
  decodeTableWord 24 0xD50692 = some (.setRgbLed 0 0 0 0) ∧
  decodeTableWord 24 0xD503FF = none

/-- No three bytes belong to two rows of the table, and every frame the encoder makes with the default `DELAY_ID`
belongs to the row of its command's tag (30_encoding.md section 6). -/
def Obligations.TableRowsPartitionTheFrames : Prop :=
  (∀ (h : BitVec 24) (r q : TableRow), r ∈ opcodeTable → q ∈ opcodeTable → r.covers h = true → q.covers h = true →
    r = q) ∧
  (∀ i : Instr, i.wf = true → ∃ r ∈ opcodeTable, ∃ h,
    headerOf (frameOf Config.default i) = some h ∧ r.covers h = true ∧ r.tag = (encode i).tag)

/-- Decoding the descriptor of a well-formed command gives the command back, every operand included. -/
def Obligations.DecodeInvertsEncode : Prop :=
  ∀ i : Instr, i.wf = true → decode (encode i) = .ok i

/-- The decoder gives only well-formed commands, and refuses exactly: `BadTag` the tags 25..31, `TooLong` the byte
strings beyond 253, 251 and 252 (decisions D4, D5 of 92_eei_decisions.md). -/
def Obligations.DecoderRefusesExactlyTheIllFormed : Prop :=
  (∀ (d : Descriptor) (i : Instr), decode d = .ok i → i.wf = true) ∧
  (∀ d : Descriptor, decode d = .error .badTag ↔ 25 ≤ d.tag.toNat) ∧
  (∀ d : Descriptor, decode d = .error .tooLong ↔
    (d.tag = 6 ∧ 253 < d.vlen.toNat) ∨ (d.tag = 9 ∧ 251 < d.vlen.toNat) ∨ (d.tag = 24 ∧ 252 < d.vlen.toNat))

/-- The byte strings of two descriptors are the same. -/
def Claims.SameBytes (d d' : Descriptor) : Prop :=
  d.vlen = d'.vlen ∧ d.v.toList.take d.vlen.toNat = d'.v.toList.take d'.vlen.toNat

/-- Two words agree in their low `n` bits. -/
def Claims.SameLow (n : Nat) (w w' : Word) : Prop := w.toNat % 2 ^ n = w'.toNat % 2 ^ n

/-- Two descriptors with this tag agree on the slots 30_encoding.md R86 binds to it. -/
def Claims.SameBoundSlots (d d' : Descriptor) : Prop :=
  match d.tag.toNat with
  | 6 => Claims.SameLow 8 d.w0 d'.w0 ∧ Claims.SameBytes d d'
  | 8 => Claims.SameLow 16 d.w0 d'.w0 ∧ Claims.SameLow 8 d.w1 d'.w1
  | 9 => Claims.SameLow 16 d.w0 d'.w0 ∧ Claims.SameLow 8 d.w1 d'.w1 ∧ Claims.SameBytes d d'
  | 12 => d.w0 = d'.w0
  | 14 | 15 => d.m = d'.m ∧ d.w0 = d'.w0 ∧ Claims.SameLow 16 d.w1 d'.w1
  | 16 => Claims.SameLow 8 d.w0 d'.w0
  | 17 | 21 => Claims.SameLow 8 d.w0 d'.w0 ∧ Claims.SameLow 16 d.w1 d'.w1 ∧ Claims.SameLow 16 d.w2 d'.w2
  | 18 => d.m = d'.m ∧ d.e = d'.e
  | 19 => d.w0 = d'.w0 ∧ d.w1 = d'.w1 ∧ d.w2 = d'.w2 ∧ d.w3 = d'.w3 ∧ d.w4 = d'.w4 ∧ d.w5 = d'.w5
  | 20 => d.w0 = d'.w0 ∧ d.w1 = d'.w1 ∧ d.w2 = d'.w2 ∧ d.w3 = d'.w3 ∧ d.w4 = d'.w4
  | 22 => d.w0 = d'.w0 ∧ d.w1 = d'.w1 ∧ d.w2 = d'.w2 ∧ d.w3 = d'.w3 ∧ d.w4 = d'.w4 ∧ d.w5 = d'.w5 ∧ d.m = d'.m
  | 23 =>
    Claims.SameLow 8 d.w0 d'.w0 ∧ Claims.SameLow 8 d.w1 d'.w1 ∧ Claims.SameLow 8 d.w2 d'.w2 ∧
      Claims.SameLow 8 d.w3 d'.w3
  | 24 => Claims.SameLow 8 d.w0 d'.w0 ∧ Claims.SameLow 8 d.w1 d'.w1 ∧ Claims.SameBytes d d'
  | _ => True

/-- Each command reads only the slots bound to it and only their low bits (decision D4 of 92_eei_decisions.md). -/
def Obligations.DecodeReadsOnlyBoundSlots : Prop :=
  ∀ d d' : Descriptor, d.tag = d'.tag → Claims.SameBoundSlots d d' → decode d = decode d'

/-- With the default `DELAY_ID`, two well-formed commands with the same frame are the same command: the shared id of
Delay and GetCurrentPosition is harmless (decision D2 of 92_eei_decisions.md). -/
def Obligations.FramesIdentifyCommands : Prop :=
  ∀ i j : Instr, i.wf = true → j.wf = true →
    frameOf Config.default i = frameOf Config.default j → i = j

/-! ### Acceptance of a command -/

/-- The ten commands without payload (42_commands_00_17.md sections 1, 3, 5, 7). Each is selected by its tag alone, and
on an idle transmitter its four-byte frame is taken up and nothing else changes. Abort has no priority over a frame
that is being sent. Two clauses are the model's: that `tx_buf` beyond the frame reads as before (log entry 5), and that
a command offered while busy passes with nothing changed (log entry 1). -/
def Obligations.NoPayloadCommandsTakeUpTheirFrames : Prop :=
  (∀ d : Descriptor, (d.tag = 0 → decode d = .ok .getVersion) ∧ (d.tag = 1 → decode d = .ok .init) ∧
    (d.tag = 2 → decode d = .ok .availableBufferSize) ∧ (d.tag = 3 → decode d = .ok .clearBuffer) ∧
    (d.tag = 4 → decode d = .ok .abort) ∧ (d.tag = 5 → decode d = .ok .pause) ∧
    (d.tag = 7 → decode d = .ok .isFinished) ∧ (d.tag = 10 → decode d = .ok .reset) ∧
    (d.tag = 11 → decode d = .ok .getCurrentPosition) ∧ (d.tag = 13 → decode d = .ok .getMotherboardStatus)) ∧
  (∀ s : State, s.txBusy = false →
    (∃ t, exec .getVersion s = .next t ∧ s.TakesUp [0xD5, 0x01, 0x00, 0x00] t) ∧
    (∃ t, exec .init s = .next t ∧ s.TakesUp [0xD5, 0x01, 0x01, 0x5E] t) ∧
    (∃ t, exec .availableBufferSize s = .next t ∧ s.TakesUp [0xD5, 0x01, 0x02, 0xBC] t) ∧
    (∃ t, exec .clearBuffer s = .next t ∧ s.TakesUp [0xD5, 0x01, 0x03, 0xE2] t) ∧
    (∃ t, exec .abort s = .next t ∧ s.TakesUp [0xD5, 0x01, 0x07, 0x83] t) ∧
    (∃ t, exec .pause s = .next t ∧ s.TakesUp [0xD5, 0x01, 0x08, 0xC2] t) ∧
    (∃ t, exec .isFinished s = .next t ∧ s.TakesUp [0xD5, 0x01, 0x0B, 0x20] t) ∧
    (∃ t, exec .reset s = .next t ∧ s.TakesUp [0xD5, 0x01, 0x11, 0xC3] t) ∧
    (∃ t, exec .getCurrentPosition s = .next t ∧ s.TakesUp [0xD5, 0x01, 0x15, 0xA2] t) ∧
    (∃ t, exec .getMotherboardStatus s = .next t ∧ s.TakesUp [0xD5, 0x01, 0x17, 0x1E] t)) ∧
  (∀ s : State, s.txBusy = true → exec .abort s = .next s)

/-- ToolQuery and ToolAction (42_commands_00_17.md section 2, 43_commands_83_92.md section 6), with byte strings up to
253 and 252 bytes; a longer one is refused `TooLong` and nothing else changes. Two clauses are the model's: that
`tx_buf` beyond the frame reads as before (log entry 5), and that `exec` refuses a command term with a longer string
(log entry 10). -/
def Obligations.ToolStringsAreCopiedOrRefused : Prop :=
  (∀ d : Descriptor, d.tag = 6 →
    (d.vlen.toNat ≤ 253 →
      decode d = .ok (.toolQuery (d.w0.extractLsb' 0 8) (d.v.toList.take d.vlen.toNat))) ∧
    (253 < d.vlen.toNat → decode d = .error .tooLong)) ∧
  (∀ d : Descriptor, d.tag = 24 →
    (d.vlen.toNat ≤ 252 → decode d =
      .ok (.toolAction (d.w0.extractLsb' 0 8) (d.w1.extractLsb' 0 8) (d.v.toList.take d.vlen.toNat))) ∧
    (252 < d.vlen.toNat → decode d = .error .tooLong)) ∧
  (∀ (s : State) (toolIndex : Byte) (q : List Byte), s.txBusy = false →
    (q.length ≤ 253 → ∃ t, exec (.toolQuery toolIndex q) s = .next t ∧
      s.TakesUp ([0xD5, BitVec.ofNat 8 (2 + q.length), 0x0A, toolIndex] ++ q ++ [crc8 ([0x0A, toolIndex] ++ q)]) t) ∧
    (253 < q.length → ∃ t, exec (.toolQuery toolIndex q) s = .next t ∧ s.Raises (.cmdRefused .tooLong) t)) ∧
  (∀ (s : State) (toolId actionId : Byte) (p : List Byte), s.txBusy = false →
    (p.length ≤ 252 → ∃ t, exec (.toolAction toolId actionId p) s = .next t ∧
      s.TakesUp ([0xD5, BitVec.ofNat 8 (3 + p.length), 0x88, toolId, actionId] ++ p ++
        [crc8 ([0x88, toolId, actionId] ++ p)]) t) ∧
    (252 < p.length → ∃ t, exec (.toolAction toolId actionId p) s = .next t ∧
      s.Raises (.cmdRefused .tooLong) t))

/-- EepromRead with its offset high byte first, EepromWrite with its offset low byte first (42_commands_00_17.md section
4, 20_memory.md section 2); `nBytes` is written as given; data of more than 251 bytes is refused `TooLong`. Two clauses
are the model's: that `tx_buf` beyond the frame reads as before (log entry 5), and that `exec` refuses a command term
with longer data (log entry 10). -/
def Obligations.EepromOffsetsHaveTheirByteOrders : Prop :=
  (∀ d : Descriptor, d.tag = 8 → decode d = .ok (.eepromRead (d.w0.extractLsb' 0 16) (d.w1.extractLsb' 0 8))) ∧
  (∀ d : Descriptor, d.tag = 9 →
    (d.vlen.toNat ≤ 251 → decode d =
      .ok (.eepromWrite (d.w0.extractLsb' 0 16) (d.w1.extractLsb' 0 8) (d.v.toList.take d.vlen.toNat))) ∧
    (251 < d.vlen.toNat → decode d = .error .tooLong)) ∧
  (∀ (s : State) (offset : Half) (nBytes : Byte), s.txBusy = false →
    ∃ t, exec (.eepromRead offset nBytes) s = .next t ∧
      s.TakesUp [0xD5, 0x04, 0x0C, offset.extractLsb' 8 8, offset.extractLsb' 0 8, nBytes,
        crc8 [0x0C, offset.extractLsb' 8 8, offset.extractLsb' 0 8, nBytes]] t) ∧
  (∀ (s : State) (offset : Half) (nBytes : Byte) (data : List Byte), s.txBusy = false →
    (data.length ≤ 251 → ∃ t, exec (.eepromWrite offset nBytes data) s = .next t ∧
      s.TakesUp ([0xD5, BitVec.ofNat 8 (4 + data.length), 0x0D, offset.extractLsb' 0 8, offset.extractLsb' 8 8,
        nBytes] ++ data ++ [crc8 ([0x0D, offset.extractLsb' 0 8, offset.extractLsb' 8 8, nBytes] ++ data)]) t) ∧
    (251 < data.length → ∃ t, exec (.eepromWrite offset nBytes data) s = .next t ∧
      s.Raises (.cmdRefused .tooLong) t))

/-- Delay, for every `DELAY_ID` of the instance, with the three examples of 42_commands_00_17.md section 6. That `tx_buf`
beyond the frame reads as before is the model's (log entry 5). -/
def Obligations.DelayCarriesTheConfiguredId : Prop :=
  (∀ d : Descriptor, d.tag = 12 → decode d = .ok (.delay d.w0)) ∧
  (∀ (s : State) (w : Word), s.txBusy = false →
    ∃ t, exec (.delay w) s = .next t ∧
      s.TakesUp [0xD5, 0x05, s.config.delayId, w.extractLsb' 0 8, w.extractLsb' 8 8, w.extractLsb' 16 8,
        w.extractLsb' 24 8, crc8 [s.config.delayId, w.extractLsb' 0 8, w.extractLsb' 8 8, w.extractLsb' 16 8,
          w.extractLsb' 24 8]] t) ∧
  frameOf { delayId := 0x15 } (.delay 1000000) = [0xD5, 0x05, 0x15, 0x40, 0x42, 0x0F, 0x00, 0x28] ∧
  frameOf { delayId := 0x15 } (.delay 0) = [0xD5, 0x05, 0x15, 0x00, 0x00, 0x00, 0x00, 0xAE] ∧
  frameOf { delayId := 0x85 } (.delay 1000000) = [0xD5, 0x05, 0x85, 0x40, 0x42, 0x0F, 0x00, 0x9F]

/-- The homing commands (43_commands_83_92.md section 1). That `tx_buf` beyond the frame reads as before is the model's
(log entry 5). -/
def Obligations.HomingCommandsTakeUpTheirFrames : Prop :=
  (∀ d : Descriptor,
    (d.tag = 14 → decode d = .ok (.homeAxesMinimum d.m d.w0 (d.w1.extractLsb' 0 16))) ∧
    (d.tag = 15 → decode d = .ok (.homeAxesMaximum d.m d.w0 (d.w1.extractLsb' 0 16)))) ∧
  (∀ (s : State) (axes : AxisSet) (f : Word) (n : Half), s.txBusy = false →
    (∃ t, exec (.homeAxesMinimum axes f n) s = .next t ∧
      s.TakesUp [0xD5, 0x08, 0x83, 0#3 ++ axes, f.extractLsb' 0 8, f.extractLsb' 8 8, f.extractLsb' 16 8,
        f.extractLsb' 24 8, n.extractLsb' 0 8, n.extractLsb' 8 8,
        crc8 [0x83, 0#3 ++ axes, f.extractLsb' 0 8, f.extractLsb' 8 8, f.extractLsb' 16 8, f.extractLsb' 24 8,
          n.extractLsb' 0 8, n.extractLsb' 8 8]] t) ∧
    (∃ t, exec (.homeAxesMaximum axes f n) s = .next t ∧
      s.TakesUp [0xD5, 0x08, 0x84, 0#3 ++ axes, f.extractLsb' 0 8, f.extractLsb' 8 8, f.extractLsb' 16 8,
        f.extractLsb' 24 8, n.extractLsb' 0 8, n.extractLsb' 8 8,
        crc8 [0x84, 0#3 ++ axes, f.extractLsb' 0 8, f.extractLsb' 8 8, f.extractLsb' 16 8, f.extractLsb' 24 8,
          n.extractLsb' 0 8, n.extractLsb' 8 8]] t))

/-- ChangeTool and the two waiting commands (43_commands_83_92.md section 2 and WaitForPlatformReady in section 4). That
`tx_buf` beyond the frame reads as before is the model's (log entry 5). -/
def Obligations.ToolSelectionCommandsTakeUpTheirFrames : Prop :=
  (∀ d : Descriptor,
    (d.tag = 16 → decode d = .ok (.changeTool (d.w0.extractLsb' 0 8))) ∧
    (d.tag = 17 → decode d =
      .ok (.waitForToolReady (d.w0.extractLsb' 0 8) (d.w1.extractLsb' 0 16) (d.w2.extractLsb' 0 16))) ∧
    (d.tag = 21 → decode d =
      .ok (.waitForPlatformReady (d.w0.extractLsb' 0 8) (d.w1.extractLsb' 0 16) (d.w2.extractLsb' 0 16)))) ∧
  (∀ (s : State) (toolId : Byte) (q n : Half), s.txBusy = false →
    (∃ t, exec (.changeTool toolId) s = .next t ∧
      s.TakesUp [0xD5, 0x02, 0x86, toolId, crc8 [0x86, toolId]] t) ∧
    (∃ t, exec (.waitForToolReady toolId q n) s = .next t ∧
      s.TakesUp [0xD5, 0x06, 0x87, toolId, q.extractLsb' 0 8, q.extractLsb' 8 8, n.extractLsb' 0 8,
        n.extractLsb' 8 8, crc8 [0x87, toolId, q.extractLsb' 0 8, q.extractLsb' 8 8, n.extractLsb' 0 8,
          n.extractLsb' 8 8]] t) ∧
    (∃ t, exec (.waitForPlatformReady toolId q n) s = .next t ∧
      s.TakesUp [0xD5, 0x06, 0x8D, toolId, q.extractLsb' 0 8, q.extractLsb' 8 8, n.extractLsb' 0 8,
        n.extractLsb' 8 8, crc8 [0x8D, toolId, q.extractLsb' 0 8, q.extractLsb' 8 8, n.extractLsb' 0 8,
          n.extractLsb' 8 8]] t))

/-- EnableDisableAxes: the enable flag at bit 7, which is the spec's decision D3 (from general knowledge; log entry
3), bits 6 and 5 zero, the mask below. That `tx_buf` beyond the frame reads as before is the model's (log entry 5). -/
def Obligations.EnableFlagIsBitSevenOfTheMask : Prop :=
  (∀ d : Descriptor, d.tag = 18 → decode d = .ok (.enableDisableAxes d.m d.e)) ∧
  (∀ (s : State) (axes : AxisSet) (enable : Bool), s.txBusy = false →
    ∃ t, exec (.enableDisableAxes axes enable) s = .next t ∧
      s.TakesUp [0xD5, 0x02, 0x89, BitVec.ofBool enable ++ 0#2 ++ axes,
        crc8 [0x89, BitVec.ofBool enable ++ 0#2 ++ axes]] t)

/-- The bytes of a 32-bit word, low byte first. -/
def Claims.wordBytes (w : Word) : List Byte :=
  [w.extractLsb' 0 8, w.extractLsb' 8 8, w.extractLsb' 16 8, w.extractLsb' 24 8]

/-- The motion commands, every word low byte first (43_commands_83_92.md section 4). That `tx_buf` beyond the frame reads
as before is the model's (log entry 5). -/
def Obligations.MotionCommandsTakeUpTheirFrames : Prop :=
  (∀ d : Descriptor,
    (d.tag = 19 → decode d = .ok (.queueExtendedPointLegacy d.w0 d.w1 d.w2 d.w3 d.w4 d.w5)) ∧
    (d.tag = 20 → decode d = .ok (.setExtendedPosition d.w0 d.w1 d.w2 d.w3 d.w4)) ∧
    (d.tag = 22 → decode d = .ok (.queueExtendedPoint d.w0 d.w1 d.w2 d.w3 d.w4 d.w5 d.m))) ∧
  (∀ (s : State) (x y z a b w : Word) (axes : AxisSet) (xyzab : List Byte), s.txBusy = false →
    xyzab = Claims.wordBytes x ++ Claims.wordBytes y ++ Claims.wordBytes z ++ Claims.wordBytes a ++
      Claims.wordBytes b →
    (∃ t, exec (.queueExtendedPointLegacy x y z a b w) s = .next t ∧
      s.TakesUp ([0xD5, 0x19, 0x8B] ++ xyzab ++ Claims.wordBytes w ++
        [crc8 ([0x8B] ++ xyzab ++ Claims.wordBytes w)]) t) ∧
    (∃ t, exec (.setExtendedPosition x y z a b) s = .next t ∧
      s.TakesUp ([0xD5, 0x15, 0x8C] ++ xyzab ++ [crc8 ([0x8C] ++ xyzab)]) t) ∧
    (∃ t, exec (.queueExtendedPoint x y z a b w axes) s = .next t ∧
      s.TakesUp ([0xD5, 0x1A, 0x8E] ++ xyzab ++ Claims.wordBytes w ++ [0#3 ++ axes] ++
        [crc8 ([0x8E] ++ xyzab ++ Claims.wordBytes w ++ [0#3 ++ axes])]) t))

/-- SetRgbLed, its fifth payload byte always zero (43_commands_83_92.md section 5). That `tx_buf` beyond the frame reads
as before is the model's (log entry 5). -/
def Obligations.SetRgbLedWritesItsReservedZero : Prop :=
  (∀ d : Descriptor, d.tag = 23 → decode d = .ok (.setRgbLed (d.w0.extractLsb' 0 8) (d.w1.extractLsb' 0 8)
    (d.w2.extractLsb' 0 8) (d.w3.extractLsb' 0 8))) ∧
  (∀ (s : State) (red green blue blink : Byte), s.txBusy = false →
    ∃ t, exec (.setRgbLed red green blue blink) s = .next t ∧
      s.TakesUp [0xD5, 0x06, 0x92, red, green, blue, blink, 0x00, crc8 [0x92, red, green, blue, blink, 0x00]] t)

/-- Every well-formed command, on an idle transmitter, has its frame taken up and changes nothing else
(41_frame_serializer.md section 2). That `tx_buf` beyond the frame reads as before is the model's (log entry 5). -/
def Obligations.EveryWellFormedCommandIsAccepted : Prop :=
  (∀ (i : Instr) (s : State), i.wf = true → s.txBusy = false →
    ∃ t, exec i s = .next t ∧ s.TakesUp (frameOf s.config i) t) ∧
  (∀ (d : Descriptor) (i : Instr) (s : State), decode d = .ok i → s.txBusy = false →
    ∃ t, cmdAccept d s = .next t ∧ s.TakesUp (frameOf s.config i) t)

/-- The frame condition of all 25 commands: what `CMD_ACCEPT` leaves unchanged. The stored bytes are those of
`frameOf s.config i` from index 0 of `tx_buf`, and none where the command is not taken or refused. Three clauses are the
model's choice: that `tx_buf` beyond the frame reads as before (log entry 5), that `exec` refuses an ill-formed command
term (log entry 10), and that a command offered while busy passes with nothing changed (log entry 1). -/
def Obligations.CommandsLeaveTheRestUnchanged : Prop :=
  ∀ (i : Instr) (s t : State), exec i s = .next t →
    s.SameRx t ∧ (∀ a, t.rxBuf.read a = s.rxBuf.read a) ∧
    t.config = s.config ∧ t.outbound = s.outbound ∧ t.inbound = s.inbound ∧ t.schedule = s.schedule ∧
    (s.txBusy = false → i.wf = true →
      (∀ a, (frameOf s.config i).length ≤ a → t.txBuf.read a = s.txBuf.read a) ∧
      t.events = s.events ∧ t.pulses = s.pulses) ∧
    (s.txBusy = false → i.wf = false →
      s.Raises (.cmdRefused .tooLong) t ∧ ∀ a, t.txBuf.read a = s.txBuf.read a) ∧
    (s.txBusy = true → t = s)

/-- While `tx_busy` a command is neither taken nor refused: nothing changes and no event is raised (decision D20 of
92_eei_decisions.md; log entry 1). -/
def Obligations.BusyTransmitterTakesNothing : Prop :=
  (∀ (i : Instr) (s : State), s.txBusy = true → exec i s = .next s) ∧
  (∀ (d : Descriptor) (s : State), s.txBusy = true → cmdAccept d s = .next s)

/-- A refused descriptor writes no state of the block and sends nothing: `BadTag` for an unknown tag whatever its
`vlen`, else `TooLong` (decisions D4, D5 of 92_eei_decisions.md). -/
def Obligations.RefusedDescriptorsOnlyRaiseTheEvent : Prop :=
  ∀ (d : Descriptor) (s : State), s.txBusy = false →
    (25 ≤ d.tag.toNat → ∃ t, cmdAccept d s = .next t ∧ s.Raises (.cmdRefused .badTag) t) ∧
    ((d.tag = 6 ∧ 253 < d.vlen.toNat) ∨ (d.tag = 9 ∧ 251 < d.vlen.toNat) ∨ (d.tag = 24 ∧ 252 < d.vlen.toNat) →
      ∃ t, cmdAccept d s = .next t ∧ s.Raises (.cmdRefused .tooLong) t)

/-- A step runs the decoded command: with a descriptor at the head of the schedule that decodes to `i`, and the
transmitter idle, the step is `exec i` after the schedule has moved on and the old pulses are low (the model's step,
log entries 1 and 7). -/
def Obligations.StepRunsTheDecodedCommand : Prop :=
  ∀ (s : State) (d : Descriptor) (rest : List Action) (i : Instr),
    s.schedule = .cmdAccept d :: rest → s.txBusy = false → decode d = .ok i →
    step s = exec i { s with pulses := [], schedule := rest }

/-- R107: for every accepted descriptor the last byte of `tx_buf[0 .. tx_len-1]` is the checksum of the bytes from
index 2 to the one before it. -/
def Obligations.AcceptedFramesCarryTheirChecksum : Prop :=
  ∀ (d : Descriptor) (i : Instr) (s : State), decode d = .ok i → s.txBusy = false →
    ∃ t body, cmdAccept d s = .next t ∧ t.txBuf.readBytes 2 (t.txLen - 3) = some body ∧
      t.txBuf.read (t.txLen - 1) = some (crc8 body)

/-! ### Sending -/

/-- One `TX_EMIT` step (41_frame_serializer.md section 2): the byte at `tx_idx` goes out, the position moves on or, after
the last byte, the transmitter is idle; `tx_buf` and `tx_len` are not changed and no event is raised. That a `TX_EMIT`
scheduled while the transmitter is idle passes with nothing changed is the model's form (log entry 1). -/
def Obligations.TxEmitSendsOneByte : Prop :=
  ∀ (s : State) (rest : List Action), s.schedule = .txEmit :: rest →
    (∀ b, s.txBusy = true → s.txBuf.read s.txIdx = some b →
      (s.txIdx + 1 = s.txLen → step s = .next { s with
        schedule := rest, pulses := [], outbound := s.outbound ++ [b], txBusy := false, txIdx := 0 }) ∧
      (s.txIdx + 1 ≠ s.txLen → step s = .next { s with
        schedule := rest, pulses := [], outbound := s.outbound ++ [b], txIdx := s.txIdx + 1 })) ∧
    (s.txBusy = false → step s = .next { s with schedule := rest, pulses := [] })

/-- The transmit law: an accepted command followed by ready transport steps puts exactly its frame on the outbound
stream, in index order, each byte once, in `len(payload) + 4` steps, and leaves the transmitter idle
(41_frame_serializer.md section 2). -/
def Obligations.TransmitLaw : Prop :=
  ∀ (s : State) (d : Descriptor) (i : Instr) (rest : List Action) (n : Nat),
    decode d = .ok i → s.txBusy = false → n = (layoutOf s.config i).payload.length + 4 →
    s.schedule = .cmdAccept d :: (List.replicate n .txEmit ++ rest) →
    ∀ k, k ≤ n → ∃ t, steps (k + 1) s = .next t ∧
      t.outbound = s.outbound ++ (frameOf s.config i).take k ∧
      t.txBusy = decide (k < n) ∧ t.txIdx = (if k < n then k else 0) ∧
      t.schedule = List.replicate (n - k) .txEmit ++ rest ∧ t.events = s.events ∧ s.SameRx t

/-- A step moves at most one byte of each stream: it appends the byte at `tx_idx` to the outbound stream, on `TX_EMIT`
alone, or takes the front byte of the inbound stream, on `RX_BYTE` alone (20_memory.md sections 3 and 4). -/
def Obligations.StreamsMoveOneByteAStep : Prop :=
  ∀ s t : State, step s = .next t →
    (t.outbound = s.outbound ∨
      ∃ b, s.schedule.head? = some .txEmit ∧ s.txBusy = true ∧ s.txBuf.read s.txIdx = some b ∧
        t.outbound = s.outbound ++ [b]) ∧
    (t.inbound = s.inbound ∨ (s.schedule.head? = some .rxByte ∧ ∃ d, s.inbound = d :: t.inbound))

/-- The outbound stream after `base` is whole frames in order, and while busy the sent part of the frame in `tx_buf`;
every payload fits the length byte, so that each is a frame in the sense of R120. -/
def Claims.SendsWholeFrames (base : List Byte) (s : State) : Prop :=
  ∃ sent : List Layout, (∀ l ∈ sent, l.payload.length ≤ txPayloadMax) ∧
    (s.txBusy = false → s.outbound = base ++ (sent.map frame).flatten) ∧
    (s.txBusy = true → ∃ l : Layout, l.payload.length ≤ txPayloadMax ∧ s.txLen = (frame l).length ∧
      s.txIdx < s.txLen ∧ s.txBuf.readBytes 0 s.txLen = some (frame l) ∧
      s.outbound = base ++ (sent.map frame).flatten ++ (frame l).take s.txIdx)

/-- The outbound stream is always a concatenation of whole frames, the last one perhaps under way: every step but
`RESET` keeps it so, it is so at reset, and after a `RESET` it is so of the bytes sent from then on (20_memory.md
section 3). -/
def Obligations.OutboundStreamIsWholeFrames : Prop :=
  Claims.SendsWholeFrames [] State.reset ∧
  (∀ (base : List Byte) (s t : State), Claims.SendsWholeFrames base s → s.schedule.head? ≠ some .reset →
    step s = .next t → Claims.SendsWholeFrames base t) ∧
  (∀ s t : State, s.schedule.head? = some .reset → step s = .next t →
    Claims.SendsWholeFrames s.outbound t ∧ t.outbound = s.outbound)

/-! ### Receiving -/

/-- The state after `rest` is left of the schedule and `more` of the inbound stream, old pulses low. -/
def Claims.byteTaken (s : State) (rest : List Action) (more : List Byte) : State :=
  { s with schedule := rest, pulses := [], inbound := more }

/-- The outcome is this next state, but for the host's window on `rx_buf`, the model's own field: what becomes of that is
said by `BodyIsReadableInItsWindow`. -/
def Claims.NextButWindow (o : Host.Outcome State Fault Refusal) (t : State) : Prop :=
  ∃ window, o = .next { t with rxWindow := window }

/-- R181, R184, R185: the sync byte, a length in range, and a body byte, each as one step on the inbound stream's front
byte, writing what its rule says and nothing else. The bounds on `rx_remaining` and `rx_len` are the invariant's. -/
def Obligations.ReceptionOfAFrameUpToItsCheckByte : Prop :=
  ∀ (s : State) (rest : List Action) (d : Byte) (more : List Byte),
    s.schedule = .rxByte :: rest → s.inbound = d :: more →
    (s.rxState = .awaitSync → d = 0xD5 →
      step s = .next { Claims.byteTaken s rest more with rxState := .awaitLength }) ∧
    (s.rxState = .awaitLength → 1 ≤ d.toNat →
      step s = .next { Claims.byteTaken s rest more with
        rxLen := d.toNat, rxRemaining := d.toNat, rxCrc := 0x00, rxState := .awaitPayload }) ∧
    (s.rxState = .awaitPayload → 1 ≤ s.rxRemaining → s.rxRemaining ≤ s.rxLen → s.rxLen ≤ 255 →
      Claims.NextButWindow (step s) { Claims.byteTaken s rest more with
        rxBuf := s.rxBuf.write (s.rxLen - s.rxRemaining) d
        rxCrc := crcByte s.rxCrc d
        rxRemaining := s.rxRemaining - 1
        rxState := if s.rxRemaining = 1 then .awaitChecksum else .awaitPayload })

/-- R186: the check byte. Equal to `rx_crc` it completes the response with the body as received and the class of that
body; otherwise it raises `FramingError(BadChecksum)`. The deframer searches again in both cases and nothing else
changes. -/
def Obligations.CheckByteDecidesTheFrame : Prop :=
  ∀ (s : State) (rest : List Action) (d : Byte) (more body : List Byte),
    s.schedule = .rxByte :: rest → s.inbound = d :: more → s.rxState = .awaitChecksum → 1 ≤ s.rxLen →
    s.rxBuf.readBytes 0 s.rxLen = some body →
    (d = s.rxCrc → ∃ r : Response, classify body = some r ∧ r.body = body ∧
      Claims.NextButWindow (step s) { Claims.byteTaken s rest more with
        rxState := .awaitSync, pulses := [.complete r], events := s.events ++ [.complete r] }) ∧
    (d ≠ s.rxCrc →
      step s = .next { Claims.byteTaken s rest more with
        rxState := .awaitSync, pulses := [.framingError .badChecksum]
        events := s.events ++ [.framingError .badChecksum] })

/-- A completed body is Acknowledged when its status byte is zero and DeviceRejected with that code otherwise, and the
whole body is handed over (decision D12 of 92_eei_decisions.md). -/
def Obligations.StatusByteClassifiesTheResponse : Prop :=
  (∀ data : List Byte, classify (0x00 :: data) = some (.acknowledged (0x00 :: data))) ∧
  (∀ (status : Byte) (data : List Byte), status ≠ 0x00 →
    classify (status :: data) = some (.deviceRejected status (status :: data))) ∧
  (∀ body : List Byte, body ≠ [] → ∃ r, classify body = some r ∧ r.body = body)

/-- A byte other than the sync byte is discarded and reported in `AwaitSync`, and a zero length is a framing error in
`AwaitLength`: each as one step, which consumes the byte (decisions D10, D7 and D9 of 92_eei_decisions.md). -/
def Obligations.DiscardedBytesAndZeroLengths : Prop :=
  ∀ (s : State) (rest : List Action) (d : Byte) (more : List Byte),
    s.schedule = .rxByte :: rest → s.inbound = d :: more →
    (s.rxState = .awaitSync → d ≠ 0xD5 →
      step s = .next { Claims.byteTaken s rest more with
        pulses := [.rxDiscard d], events := s.events ++ [.rxDiscard d] }) ∧
    (s.rxState = .awaitLength → d = 0x00 →
      step s = .next { Claims.byteTaken s rest more with
        rxState := .awaitSync, pulses := [.framingError .badLength]
        events := s.events ++ [.framingError .badLength] })

/-- R188: `0xD5` is the sync byte only in `AwaitSync`; elsewhere it is the length 213, a body byte, or a check byte to
compare. -/
def Obligations.SyncByteIsDataInsideAFrame : Prop :=
  ∀ s : State,
    (s.rxState = .awaitLength → rxByte 0xD5 s = .next { s with
      rxLen := 213, rxRemaining := 213, rxCrc := 0x00, rxState := .awaitPayload }) ∧
    (s.rxState = .awaitPayload → 1 ≤ s.rxRemaining → s.rxRemaining ≤ s.rxLen → s.rxLen ≤ 255 →
      Claims.NextButWindow (rxByte 0xD5 s) { s with
        rxBuf := s.rxBuf.write (s.rxLen - s.rxRemaining) 0xD5
        rxCrc := crcByte s.rxCrc 0xD5
        rxRemaining := s.rxRemaining - 1
        rxState := if s.rxRemaining = 1 then .awaitChecksum else .awaitPayload }) ∧
    (s.rxState = .awaitChecksum → s.rxCrc ≠ 0xD5 → ∃ t, rxByte 0xD5 s = .next t ∧
      State.Raises { s with rxState := .awaitSync } (.framingError .badChecksum) t) ∧
    (∀ body, s.rxState = .awaitChecksum → s.rxCrc = 0xD5 → 1 ≤ s.rxLen →
      s.rxBuf.readBytes 0 s.rxLen = some body → ∃ t r, Claims.NextButWindow (rxByte 0xD5 s) t ∧
        classify body = some r ∧ r.body = body ∧ State.Raises { s with rxState := .awaitSync } (.complete r) t)

/-- R189: the result of feeding bytes does not depend on how they are cut into chunks. -/
def Obligations.FeedingDoesNotDependOnChunks : Prop :=
  (∀ (a b : List Byte) (s : State), feed (a ++ b) s = andThen (feed a s) (feed b)) ∧
  (∀ (chunks : List (List Byte)) (s : State),
    feed chunks.flatten s = chunks.foldl (fun o chunk => andThen o (feed chunk)) (.next s))

/-- `feed` is the machine's `RX_BYTE` steps: with as many of them scheduled as there are bytes, and the bytes at the
front of the inbound stream, the steps consume exactly those bytes, leave the RX state and the events that `feed`
leaves, and touch nothing of TX; and they go on exactly where `feed` does. The schedule is the model's form (log entry
1); that a chunk's events are all of them, in order, is decision D17 of 92_eei_decisions.md. -/
def Obligations.FeedIsTheScheduledByteSteps : Prop :=
  ∀ (s : State) (bytes more : List Byte) (rest : List Action),
    s.schedule = List.replicate bytes.length .rxByte ++ rest → s.inbound = bytes ++ more →
    (∀ t, feed bytes s = .next t → ∃ u, steps bytes.length s = .next u ∧
      t.SameRx u ∧ u.events = t.events ∧ u.inbound = more ∧ u.schedule = rest ∧
      s.SameTx u ∧ u.outbound = s.outbound ∧ u.config = s.config) ∧
    (∀ u, steps bytes.length s = .next u → ∃ t, feed bytes s = .next t)

/-- The host's read of the body through `rx_rd_addr` and `rx_rd_data`: the step that raises `Complete` makes exactly the
body readable; it stays so until a step stores a body byte of a later frame or resets the block, and from then on no
address has a value. That a read outside this window has no value is decision D11 of 92_eei_decisions.md; that there is
none before the first `Complete` and after `RESET` is the model's reading of it (log entries 4 and 15). -/
def Obligations.BodyIsReadableInItsWindow : Prop :=
  (∀ a : Byte, State.reset.rxRdData a = none) ∧
  ∀ s t : State, step s = .next t →
    (∀ r, t.pulses = [.complete r] → ∀ a : Byte, t.rxRdData a = r.body[a.toNat]?) ∧
    ((s.schedule.head? = some .rxByte ∧ s.inbound ≠ [] ∧ s.rxState = .awaitPayload) ∨
      s.schedule.head? = some .reset → ∀ a : Byte, t.rxRdData a = none) ∧
    (¬ (s.schedule.head? = some .rxByte ∧ s.inbound ≠ [] ∧ s.rxState = .awaitPayload) →
      s.schedule.head? ≠ some .reset → (∀ r, t.pulses ≠ [.complete r]) →
      ∀ a : Byte, t.rxRdData a = s.rxRdData a)

/-- `RX_TIMEOUT`: inside a frame it raises `FramingError(Truncated)` and searches again with nothing due; in
`AwaitSync` nothing happens (decision D8 of 92_eei_decisions.md). -/
def Obligations.TimeoutTruncatesOnlyInsideAFrame : Prop :=
  ∀ (s : State) (rest : List Action), s.schedule = .rxTimeout :: rest →
    (s.rxState ≠ .awaitSync → step s = .next { s with
      schedule := rest, rxState := .awaitSync, rxRemaining := 0
      pulses := [.framingError .truncated], events := s.events ++ [.framingError .truncated] }) ∧
    (s.rxState = .awaitSync → step s = .next { s with schedule := rest, pulses := [] })

/-- Acceptance: the frame of any body of 1 to 255 bytes raises no event on any byte but the last, completes on the
last with the body, and leaves the deframer searching (44_deframer.md, Laws). -/
def Obligations.DeframerAcceptsEveryWellFormedFrame : Prop :=
  ∀ (s : State) (body : List Byte), s.rxState = .awaitSync → 1 ≤ body.length → body.length ≤ 255 →
    (∀ k, k < body.length + 3 → ∃ t,
      feed (([0xD5, BitVec.ofNat 8 body.length] ++ body ++ [crc8 body]).take k) s = .next t ∧
      t.events = s.events) ∧
    ∃ t r, feed ([0xD5, BitVec.ofNat 8 body.length] ++ body ++ [crc8 body]) s = .next t ∧
      classify body = some r ∧ t.events = s.events ++ [.complete r] ∧ t.rxState = .awaitSync ∧
      t.rxBuf.readBytes 0 body.length = some body ∧ s.SameTx t

/-- A frame with any other check byte gives `FramingError(BadChecksum)` on its last byte and nothing before, and the
deframer searches again with the next byte: the bytes of the failed frame are gone (44_deframer.md sections 1 and 3,
decision D9 of 92_eei_decisions.md). -/
def Obligations.WrongCheckByteLosesTheFrame : Prop :=
  ∀ (s : State) (body : List Byte) (check : Byte), s.rxState = .awaitSync → 1 ≤ body.length → body.length ≤ 255 →
    check ≠ crc8 body → ∃ t, feed ([0xD5, BitVec.ofNat 8 body.length] ++ body ++ [check]) s = .next t ∧
      t.events = s.events ++ [.framingError .badChecksum] ∧ t.rxState = .awaitSync ∧ t.rxRemaining = 0 ∧ s.SameTx t

/-- The block's own frames loop back: the deframer completes every frame the encoder makes, Acknowledged for
GetVersion and DeviceRejected with the command id for every other command, where Delay's id is not zero
(44_deframer.md, Laws). -/
def Obligations.OwnFramesLoopBack : Prop :=
  ∀ (config : Config) (i : Instr) (s : State), i.wf = true → s.rxState = .awaitSync → config.delayId ≠ 0x00 →
    ∃ t, feed (frameOf config i) s = .next t ∧ t.rxState = .awaitSync ∧
      t.events = s.events ++ [.complete
        (if i = .getVersion then .acknowledged [0x00]
         else .deviceRejected (layoutOf config i).id ((layoutOf config i).id :: (layoutOf config i).payload))]

/-- A well-formed frame followed by bytes that hold no sync byte gives exactly one `Complete`, then one `RxDiscard` for
each of those bytes in order, and the deframer is searching (44_deframer.md, Laws). -/
def Obligations.GarbageAfterAFrameIsDiscarded : Prop :=
  ∀ (s : State) (body garbage : List Byte), s.rxState = .awaitSync → 1 ≤ body.length → body.length ≤ 255 →
    0xD5 ∉ garbage → ∃ t r,
      feed ([0xD5, BitVec.ofNat 8 body.length] ++ body ++ [crc8 body] ++ garbage) s = .next t ∧
      classify body = some r ∧ t.events = s.events ++ [.complete r] ++ garbage.map .rxDiscard ∧
      t.rxState = .awaitSync

/-! ### The whole machine -/

/-- Every state element after reset: of the machine at start, and after a `RESET` step in any state, which raises no
event and leaves the streams and the instance's constants alone (decision D13 of 92_eei_decisions.md). `DELAY_ID` is
OPEN (decision D2): that the machine starts with 0x15 is the model's choice of the spec's default (log entry 2). -/
def Obligations.ResetLeavesTheBlockIdle : Prop :=
  (State.reset.txBusy = false ∧ State.reset.txIdx = 0 ∧ State.reset.txLen = 0 ∧ State.reset.rxState = .awaitSync ∧
    State.reset.rxLen = 0 ∧ State.reset.rxRemaining = 0 ∧ State.reset.rxCrc = 0x00 ∧ State.reset.pulses = [] ∧
    State.reset.cmdReady = true ∧ State.reset.rxIdle = true ∧ State.reset.config.delayId = 0x15) ∧
  (∀ (s : State) (rest : List Action), s.schedule = .reset :: rest → ∃ t, step s = .next t ∧
    t.txBusy = false ∧ t.txIdx = 0 ∧ t.txLen = 0 ∧ t.rxState = .awaitSync ∧ t.rxLen = 0 ∧ t.rxRemaining = 0 ∧
    t.rxCrc = 0x00 ∧ t.pulses = [] ∧ t.cmdReady = true ∧ t.rxIdle = true ∧ t.events = s.events ∧
    t.outbound = s.outbound ∧ t.inbound = s.inbound ∧ t.config = s.config ∧ t.schedule = rest)

/-- The invariant holds at reset. -/
def Obligations.InvHoldsAtReset : Prop := State.reset.Inv

/-- Every step keeps the invariant: the buffers in canonical form, the TX position inside a whole frame or 0, the RX
counters in their ranges, `rx_crc` the checksum of the body received so far, and every byte in the host's window
readable (10_state.md sections 3 and 4; the window is log entry 15). -/
def Obligations.EveryStepKeepsInv : Prop :=
  ∀ s t : State, s.Inv → step s = .next t → t.Inv

/-- No event and no input is fatal: in a state that meets the invariant every step answers a next state
(60_exceptions.md section 2). -/
def Obligations.NoStepFaultsUnderInv : Prop :=
  ∀ s : State, s.Inv → ∃ t, step s = .next t

/-- A step raises at most one event; the observation gains exactly the step's pulses, and `TX_EMIT` and `RESET` raise
none (decisions D12 and D25 of 92_eei_decisions.md). -/
def Obligations.StepsRaiseAtMostOneEvent : Prop :=
  ∀ s t : State, step s = .next t →
    t.pulses.length ≤ 1 ∧ t.events = s.events ++ t.pulses ∧
    (s.schedule.head? = some .txEmit ∨ s.schedule.head? = some .reset ∨ s.schedule = [] → t.pulses = [])

/-- TX steps do not touch RX state and RX steps do not touch TX state (decision D15 of 92_eei_decisions.md). -/
def Obligations.TxAndRxShareNoState : Prop :=
  ∀ (s t : State) (a : Action) (rest : List Action), s.schedule = a :: rest → step s = .next t →
    (a = .txEmit ∨ a.isCmdAccept = true → s.SameRx t ∧ t.inbound = s.inbound) ∧
    (a = .rxByte ∨ a = .rxTimeout → s.SameTx t ∧ t.outbound = s.outbound)

/-- What the deframer does with a byte depends on the RX state and that byte alone: from two states with the same RX
state it reaches the same RX state and raises the same events, whatever was sent, accepted or scheduled (decision D15
of 92_eei_decisions.md). -/
def Obligations.DeframerDependsOnRxStateAlone : Prop :=
  ∀ (d : Byte) (s s' t : State), s.SameRx s' → rxByte d s = .next t →
    ∃ t' raised, rxByte d s' = .next t' ∧ t.SameRx t' ∧ t.events = s.events ++ raised ∧
      t'.events = s'.events ++ raised

/-- A TX step and an RX step may be taken in either order: the state is the same but for the order in which their
events are recorded (10_state.md section 7). -/
def Obligations.TxAndRxStepsCommute : Prop :=
  ∀ (s t : State) (tx rx : Action), tx = .txEmit ∨ tx.isCmdAccept = true → rx = .rxByte ∨ rx = .rxTimeout →
    andThen (perform tx s) (perform rx) = .next t →
    ∃ u, andThen (perform rx s) (perform tx) = .next u ∧ t.SameButEvents u ∧ u.events.Perm t.events ∧
      u.pulses.Perm t.pulses

/-- What a step does not write: the instance's constants never change, the schedule moves on by one, and `rx_buf`
changes only when a body byte is stored or the block is reset (10_state.md sections 4 and 5). -/
def Obligations.ConstantsAndBodyBufferAreKept : Prop :=
  ∀ s t : State, step s = .next t →
    t.config = s.config ∧ t.schedule = s.schedule.tail ∧
    (t.rxBuf = s.rxBuf ∨ (s.schedule.head? = some .rxByte ∧ s.rxState = .awaitPayload) ∨
      s.schedule.head? = some .reset)

/-- The atomic steps the inputs of one clock edge ask for (10_state.md R41 to R44): `CMD_ACCEPT` or `TX_EMIT`, as
`tx_busy` says, then `RX_BYTE`, then `RX_TIMEOUT`. -/
def Claims.edgeActions (p : PortInputs) (s : State) : List Action :=
  (if s.txBusy then (if p.txReady then [.txEmit] else []) else (if p.cmdValid then [.cmdAccept p.cmd] else [])) ++
  (if p.rxValid then [.rxByte] else []) ++ (if p.rxTimeout then [.rxTimeout] else [])

/-- One clock edge: `RESET` excludes every other step; any other edge is the atomic steps its inputs ask for, at most
three, taken one after the other from the state with the old pulses low and the port's byte at the front of the inbound
stream, a byte before a timeout; and so a sync byte with a timeout is a truncated frame (decisions D1 and D8 of
92_eei_decisions.md). That the TX step stands before the RX steps is the model's choice (log entry 16). -/
def Obligations.ClockEdgeOrdersItsSteps : Prop :=
  (∀ (p : PortInputs) (s : State), p.rst = true → clockEdge p s = .next s.resetBlock) ∧
  (∀ (p : PortInputs) (s : State), (Claims.edgeActions p s).length ≤ 3) ∧
  (∀ (p : PortInputs) (s : State), p.rst = false →
    clockEdge p s = (Claims.edgeActions p s).foldl (fun o a => andThen o (perform a))
      (.next { s with pulses := [], inbound := if p.rxValid then p.rxData :: s.inbound else s.inbound })) ∧
  (∀ (p : PortInputs) (s : State), p.rst = false → p.cmdValid = false → p.txReady = false → p.rxValid = true →
    p.rxTimeout = true → p.rxData = 0xD5 → s.rxState = .awaitSync →
    clockEdge p s = .next { s with
      rxRemaining := 0, pulses := [.framingError .truncated], events := s.events ++ [.framingError .truncated] }) ∧
  (∀ (p : PortInputs) (s : State), p.rst = false → p.rxValid = false → p.rxTimeout = false → p.cmdValid = true →
    s.txBusy = false → clockEdge p s = cmdAccept p.cmd { s with pulses := [] })

/-- The codes of the event outputs: one pulse for one event, with its information (decision D12 of
92_eei_decisions.md). -/
def Obligations.EventOutputsCarryTheirCodes : Prop :=
  (∀ s : State, s.pulses = [] → s.eventOutputs = ⟨none, none, none, none⟩) ∧
  (∀ s : State, s.pulses = [.cmdRefused .badTag] → s.eventOutputs = ⟨some 0, none, none, none⟩) ∧
  (∀ s : State, s.pulses = [.cmdRefused .tooLong] → s.eventOutputs = ⟨some 1, none, none, none⟩) ∧
  (∀ (s : State) (d : Byte), s.pulses = [.rxDiscard d] → s.eventOutputs = ⟨none, some d, none, none⟩) ∧
  (∀ (s : State) (status : Byte) (data : List Byte) (r : Response), classify (status :: data) = some r →
    s.pulses = [.complete r] → s.eventOutputs =
      ⟨none, none, some { len := BitVec.ofNat 8 (data.length + 1), status, ok := status == 0x00 }, none⟩) ∧
  (∀ s : State, s.pulses = [.framingError .badChecksum] → s.eventOutputs = ⟨none, none, none, some 0⟩) ∧
  (∀ s : State, s.pulses = [.framingError .badLength] → s.eventOutputs = ⟨none, none, none, some 1⟩) ∧
  (∀ s : State, s.pulses = [.framingError .truncated] → s.eventOutputs = ⟨none, none, none, some 2⟩)

/-- The status and stream outputs as functions of the state (decision D20 of 92_eei_decisions.md). -/
def Obligations.StatusOutputsFollowTheState : Prop :=
  ∀ s : State,
    (s.cmdReady = true ↔ s.txBusy = false) ∧ (s.rxIdle = true ↔ s.rxState = .awaitSync) ∧
    (s.txValid = true ↔ s.txBusy = true) ∧ s.rxReady = true ∧
    (s.txBusy = true → s.txData = s.txBuf.read s.txIdx) ∧
    (s.txLast = true ↔ s.txBusy = true ∧ s.txIdx + 1 = s.txLen)
end

