-- ==== Sys2Proof/Laws/Checksum.lean ====
section
/-! SUPPORT. The small lemmas of the checksum generator. -/

namespace Sys2Proof.Machine

@[simp] theorem crc8_nil : crc8 [] = 0x00 := rfl

/-- One more byte at the end of a sequence is one more `crc_byte` (R100). -/
theorem crc8_append_byte (s : List Byte) (d : Byte) : crc8 (s ++ [d]) = crcByte (crc8 s) d := by
  simp [crc8]

end Sys2Proof.Machine
end

