-- ==== Sys2Proof/Laws/State.lean ====
section
/-! SUPPORT. One lemma per field of State and per update of it, so that no later proof unfolds an update. -/

namespace Sys2Proof.Machine

variable (s : State)

/-! ### `State.emit` -/

@[simp] theorem State.emit_config (e : Event) : (s.emit e).config = s.config := rfl
@[simp] theorem State.emit_txBusy (e : Event) : (s.emit e).txBusy = s.txBusy := rfl
@[simp] theorem State.emit_txIdx (e : Event) : (s.emit e).txIdx = s.txIdx := rfl
@[simp] theorem State.emit_txLen (e : Event) : (s.emit e).txLen = s.txLen := rfl
@[simp] theorem State.emit_txBuf (e : Event) : (s.emit e).txBuf = s.txBuf := rfl
@[simp] theorem State.emit_rxState (e : Event) : (s.emit e).rxState = s.rxState := rfl
@[simp] theorem State.emit_rxLen (e : Event) : (s.emit e).rxLen = s.rxLen := rfl
@[simp] theorem State.emit_rxRemaining (e : Event) : (s.emit e).rxRemaining = s.rxRemaining := rfl
@[simp] theorem State.emit_rxCrc (e : Event) : (s.emit e).rxCrc = s.rxCrc := rfl
@[simp] theorem State.emit_rxBuf (e : Event) : (s.emit e).rxBuf = s.rxBuf := rfl
@[simp] theorem State.emit_rxWindow (e : Event) : (s.emit e).rxWindow = s.rxWindow := rfl
@[simp] theorem State.emit_outbound (e : Event) : (s.emit e).outbound = s.outbound := rfl
@[simp] theorem State.emit_inbound (e : Event) : (s.emit e).inbound = s.inbound := rfl
@[simp] theorem State.emit_pulses (e : Event) : (s.emit e).pulses = s.pulses ++ [e] := rfl
@[simp] theorem State.emit_events (e : Event) : (s.emit e).events = s.events ++ [e] := rfl
@[simp] theorem State.emit_schedule (e : Event) : (s.emit e).schedule = s.schedule := rfl

/-! ### `State.raiseFraming` -/

@[simp] theorem State.raiseFraming_config (r : FramingReason) : (s.raiseFraming r).config = s.config := rfl
@[simp] theorem State.raiseFraming_txBusy (r : FramingReason) : (s.raiseFraming r).txBusy = s.txBusy := rfl
@[simp] theorem State.raiseFraming_txIdx (r : FramingReason) : (s.raiseFraming r).txIdx = s.txIdx := rfl
@[simp] theorem State.raiseFraming_txLen (r : FramingReason) : (s.raiseFraming r).txLen = s.txLen := rfl
@[simp] theorem State.raiseFraming_txBuf (r : FramingReason) : (s.raiseFraming r).txBuf = s.txBuf := rfl
@[simp] theorem State.raiseFraming_rxState (r : FramingReason) : (s.raiseFraming r).rxState = .awaitSync := rfl
@[simp] theorem State.raiseFraming_rxLen (r : FramingReason) : (s.raiseFraming r).rxLen = s.rxLen := rfl
@[simp] theorem State.raiseFraming_rxRemaining (r : FramingReason) : (s.raiseFraming r).rxRemaining = s.rxRemaining := rfl
@[simp] theorem State.raiseFraming_rxCrc (r : FramingReason) : (s.raiseFraming r).rxCrc = s.rxCrc := rfl
@[simp] theorem State.raiseFraming_rxBuf (r : FramingReason) : (s.raiseFraming r).rxBuf = s.rxBuf := rfl
@[simp] theorem State.raiseFraming_rxWindow (r : FramingReason) : (s.raiseFraming r).rxWindow = s.rxWindow := rfl
@[simp] theorem State.raiseFraming_outbound (r : FramingReason) : (s.raiseFraming r).outbound = s.outbound := rfl
@[simp] theorem State.raiseFraming_inbound (r : FramingReason) : (s.raiseFraming r).inbound = s.inbound := rfl
@[simp] theorem State.raiseFraming_pulses (r : FramingReason) : (s.raiseFraming r).pulses = s.pulses ++ [.framingError r] := rfl
@[simp] theorem State.raiseFraming_events (r : FramingReason) : (s.raiseFraming r).events = s.events ++ [.framingError r] := rfl
@[simp] theorem State.raiseFraming_schedule (r : FramingReason) : (s.raiseFraming r).schedule = s.schedule := rfl

/-! ### `State.emitComplete` -/

@[simp] theorem State.emitComplete_config (r : Response) : (s.emitComplete r).config = s.config := rfl
@[simp] theorem State.emitComplete_txBusy (r : Response) : (s.emitComplete r).txBusy = s.txBusy := rfl
@[simp] theorem State.emitComplete_txIdx (r : Response) : (s.emitComplete r).txIdx = s.txIdx := rfl
@[simp] theorem State.emitComplete_txLen (r : Response) : (s.emitComplete r).txLen = s.txLen := rfl
@[simp] theorem State.emitComplete_txBuf (r : Response) : (s.emitComplete r).txBuf = s.txBuf := rfl
@[simp] theorem State.emitComplete_rxState (r : Response) : (s.emitComplete r).rxState = .awaitSync := rfl
@[simp] theorem State.emitComplete_rxLen (r : Response) : (s.emitComplete r).rxLen = s.rxLen := rfl
@[simp] theorem State.emitComplete_rxRemaining (r : Response) : (s.emitComplete r).rxRemaining = s.rxRemaining := rfl
@[simp] theorem State.emitComplete_rxCrc (r : Response) : (s.emitComplete r).rxCrc = s.rxCrc := rfl
@[simp] theorem State.emitComplete_rxBuf (r : Response) : (s.emitComplete r).rxBuf = s.rxBuf := rfl
@[simp] theorem State.emitComplete_rxWindow (r : Response) : (s.emitComplete r).rxWindow = s.rxLen := rfl
@[simp] theorem State.emitComplete_outbound (r : Response) : (s.emitComplete r).outbound = s.outbound := rfl
@[simp] theorem State.emitComplete_inbound (r : Response) : (s.emitComplete r).inbound = s.inbound := rfl
@[simp] theorem State.emitComplete_pulses (r : Response) : (s.emitComplete r).pulses = s.pulses ++ [.complete r] := rfl
@[simp] theorem State.emitComplete_events (r : Response) : (s.emitComplete r).events = s.events ++ [.complete r] := rfl
@[simp] theorem State.emitComplete_schedule (r : Response) : (s.emitComplete r).schedule = s.schedule := rfl

/-! ### `State.loadFrame` -/

@[simp] theorem State.loadFrame_config (f : List Byte) : (s.loadFrame f).config = s.config := rfl
@[simp] theorem State.loadFrame_txBusy (f : List Byte) : (s.loadFrame f).txBusy = true := rfl
@[simp] theorem State.loadFrame_txIdx (f : List Byte) : (s.loadFrame f).txIdx = 0 := rfl
@[simp] theorem State.loadFrame_txLen (f : List Byte) : (s.loadFrame f).txLen = f.length := rfl
@[simp] theorem State.loadFrame_txBuf (f : List Byte) : (s.loadFrame f).txBuf = s.txBuf.writeBytes 0 f := rfl
@[simp] theorem State.loadFrame_rxState (f : List Byte) : (s.loadFrame f).rxState = s.rxState := rfl
@[simp] theorem State.loadFrame_rxLen (f : List Byte) : (s.loadFrame f).rxLen = s.rxLen := rfl
@[simp] theorem State.loadFrame_rxRemaining (f : List Byte) : (s.loadFrame f).rxRemaining = s.rxRemaining := rfl
@[simp] theorem State.loadFrame_rxCrc (f : List Byte) : (s.loadFrame f).rxCrc = s.rxCrc := rfl
@[simp] theorem State.loadFrame_rxBuf (f : List Byte) : (s.loadFrame f).rxBuf = s.rxBuf := rfl
@[simp] theorem State.loadFrame_rxWindow (f : List Byte) : (s.loadFrame f).rxWindow = s.rxWindow := rfl
@[simp] theorem State.loadFrame_outbound (f : List Byte) : (s.loadFrame f).outbound = s.outbound := rfl
@[simp] theorem State.loadFrame_inbound (f : List Byte) : (s.loadFrame f).inbound = s.inbound := rfl
@[simp] theorem State.loadFrame_pulses (f : List Byte) : (s.loadFrame f).pulses = s.pulses := rfl
@[simp] theorem State.loadFrame_events (f : List Byte) : (s.loadFrame f).events = s.events := rfl
@[simp] theorem State.loadFrame_schedule (f : List Byte) : (s.loadFrame f).schedule = s.schedule := rfl

/-! ### `State.txPut` -/

@[simp] theorem State.txPut_config (b : Byte) : (s.txPut b).config = s.config := rfl
@[simp] theorem State.txPut_txBusy (b : Byte) : (s.txPut b).txBusy = s.txBusy := rfl
@[simp] theorem State.txPut_txIdx (b : Byte) : (s.txPut b).txIdx = s.txIdx := rfl
@[simp] theorem State.txPut_txLen (b : Byte) : (s.txPut b).txLen = s.txLen := rfl
@[simp] theorem State.txPut_txBuf (b : Byte) : (s.txPut b).txBuf = s.txBuf := rfl
@[simp] theorem State.txPut_rxState (b : Byte) : (s.txPut b).rxState = s.rxState := rfl
@[simp] theorem State.txPut_rxLen (b : Byte) : (s.txPut b).rxLen = s.rxLen := rfl
@[simp] theorem State.txPut_rxRemaining (b : Byte) : (s.txPut b).rxRemaining = s.rxRemaining := rfl
@[simp] theorem State.txPut_rxCrc (b : Byte) : (s.txPut b).rxCrc = s.rxCrc := rfl
@[simp] theorem State.txPut_rxBuf (b : Byte) : (s.txPut b).rxBuf = s.rxBuf := rfl
@[simp] theorem State.txPut_rxWindow (b : Byte) : (s.txPut b).rxWindow = s.rxWindow := rfl
@[simp] theorem State.txPut_outbound (b : Byte) : (s.txPut b).outbound = s.outbound ++ [b] := rfl
@[simp] theorem State.txPut_inbound (b : Byte) : (s.txPut b).inbound = s.inbound := rfl
@[simp] theorem State.txPut_pulses (b : Byte) : (s.txPut b).pulses = s.pulses := rfl
@[simp] theorem State.txPut_events (b : Byte) : (s.txPut b).events = s.events := rfl
@[simp] theorem State.txPut_schedule (b : Byte) : (s.txPut b).schedule = s.schedule := rfl

/-! ### `State.beginStep` -/

@[simp] theorem State.beginStep_config (rest : List Action) : (s.beginStep rest).config = s.config := rfl
@[simp] theorem State.beginStep_txBusy (rest : List Action) : (s.beginStep rest).txBusy = s.txBusy := rfl
@[simp] theorem State.beginStep_txIdx (rest : List Action) : (s.beginStep rest).txIdx = s.txIdx := rfl
@[simp] theorem State.beginStep_txLen (rest : List Action) : (s.beginStep rest).txLen = s.txLen := rfl
@[simp] theorem State.beginStep_txBuf (rest : List Action) : (s.beginStep rest).txBuf = s.txBuf := rfl
@[simp] theorem State.beginStep_rxState (rest : List Action) : (s.beginStep rest).rxState = s.rxState := rfl
@[simp] theorem State.beginStep_rxLen (rest : List Action) : (s.beginStep rest).rxLen = s.rxLen := rfl
@[simp] theorem State.beginStep_rxRemaining (rest : List Action) : (s.beginStep rest).rxRemaining = s.rxRemaining := rfl
@[simp] theorem State.beginStep_rxCrc (rest : List Action) : (s.beginStep rest).rxCrc = s.rxCrc := rfl
@[simp] theorem State.beginStep_rxBuf (rest : List Action) : (s.beginStep rest).rxBuf = s.rxBuf := rfl
@[simp] theorem State.beginStep_rxWindow (rest : List Action) : (s.beginStep rest).rxWindow = s.rxWindow := rfl
@[simp] theorem State.beginStep_outbound (rest : List Action) : (s.beginStep rest).outbound = s.outbound := rfl
@[simp] theorem State.beginStep_inbound (rest : List Action) : (s.beginStep rest).inbound = s.inbound := rfl
@[simp] theorem State.beginStep_pulses (rest : List Action) : (s.beginStep rest).pulses = [] := rfl
@[simp] theorem State.beginStep_events (rest : List Action) : (s.beginStep rest).events = s.events := rfl
@[simp] theorem State.beginStep_schedule (rest : List Action) : (s.beginStep rest).schedule = rest := rfl

/-! ### `State.offer` -/

@[simp] theorem State.offer_config (d : Descriptor) : (s.offer d).config = s.config := rfl
@[simp] theorem State.offer_txBusy (d : Descriptor) : (s.offer d).txBusy = false := rfl
@[simp] theorem State.offer_txIdx (d : Descriptor) : (s.offer d).txIdx = 0 := rfl
@[simp] theorem State.offer_txLen (d : Descriptor) : (s.offer d).txLen = s.txLen := rfl
@[simp] theorem State.offer_txBuf (d : Descriptor) : (s.offer d).txBuf = s.txBuf := rfl
@[simp] theorem State.offer_rxState (d : Descriptor) : (s.offer d).rxState = s.rxState := rfl
@[simp] theorem State.offer_rxLen (d : Descriptor) : (s.offer d).rxLen = s.rxLen := rfl
@[simp] theorem State.offer_rxRemaining (d : Descriptor) : (s.offer d).rxRemaining = s.rxRemaining := rfl
@[simp] theorem State.offer_rxCrc (d : Descriptor) : (s.offer d).rxCrc = s.rxCrc := rfl
@[simp] theorem State.offer_rxBuf (d : Descriptor) : (s.offer d).rxBuf = s.rxBuf := rfl
@[simp] theorem State.offer_rxWindow (d : Descriptor) : (s.offer d).rxWindow = s.rxWindow := rfl
@[simp] theorem State.offer_outbound (d : Descriptor) : (s.offer d).outbound = s.outbound := rfl
@[simp] theorem State.offer_inbound (d : Descriptor) : (s.offer d).inbound = s.inbound := rfl
@[simp] theorem State.offer_pulses (d : Descriptor) : (s.offer d).pulses = s.pulses := rfl
@[simp] theorem State.offer_events (d : Descriptor) : (s.offer d).events = s.events := rfl
@[simp] theorem State.offer_schedule (d : Descriptor) : (s.offer d).schedule = .cmdAccept d :: s.schedule := rfl

/-! ### `State.resetBlock` -/

@[simp] theorem State.resetBlock_config : (s.resetBlock).config = s.config := rfl
@[simp] theorem State.resetBlock_txBusy : (s.resetBlock).txBusy = false := rfl
@[simp] theorem State.resetBlock_txIdx : (s.resetBlock).txIdx = 0 := rfl
@[simp] theorem State.resetBlock_txLen : (s.resetBlock).txLen = 0 := rfl
@[simp] theorem State.resetBlock_txBuf : (s.resetBlock).txBuf = [] := rfl
@[simp] theorem State.resetBlock_rxState : (s.resetBlock).rxState = .awaitSync := rfl
@[simp] theorem State.resetBlock_rxLen : (s.resetBlock).rxLen = 0 := rfl
@[simp] theorem State.resetBlock_rxRemaining : (s.resetBlock).rxRemaining = 0 := rfl
@[simp] theorem State.resetBlock_rxCrc : (s.resetBlock).rxCrc = 0x00 := rfl
@[simp] theorem State.resetBlock_rxBuf : (s.resetBlock).rxBuf = [] := rfl
@[simp] theorem State.resetBlock_rxWindow : (s.resetBlock).rxWindow = 0 := rfl
@[simp] theorem State.resetBlock_outbound : (s.resetBlock).outbound = s.outbound := rfl
@[simp] theorem State.resetBlock_inbound : (s.resetBlock).inbound = s.inbound := rfl
@[simp] theorem State.resetBlock_pulses : (s.resetBlock).pulses = [] := rfl
@[simp] theorem State.resetBlock_events : (s.resetBlock).events = s.events := rfl
@[simp] theorem State.resetBlock_schedule : (s.resetBlock).schedule = s.schedule := rfl

/-! ### `State.txAdvance` -/

@[simp] theorem State.txAdvance_config : s.txAdvance.config = s.config := by
  unfold State.txAdvance; split <;> rfl

@[simp] theorem State.txAdvance_txLen : s.txAdvance.txLen = s.txLen := by
  unfold State.txAdvance; split <;> rfl

@[simp] theorem State.txAdvance_txBuf : s.txAdvance.txBuf = s.txBuf := by
  unfold State.txAdvance; split <;> rfl

@[simp] theorem State.txAdvance_rxState : s.txAdvance.rxState = s.rxState := by
  unfold State.txAdvance; split <;> rfl

@[simp] theorem State.txAdvance_rxLen : s.txAdvance.rxLen = s.rxLen := by
  unfold State.txAdvance; split <;> rfl

@[simp] theorem State.txAdvance_rxRemaining : s.txAdvance.rxRemaining = s.rxRemaining := by
  unfold State.txAdvance; split <;> rfl

@[simp] theorem State.txAdvance_rxCrc : s.txAdvance.rxCrc = s.rxCrc := by
  unfold State.txAdvance; split <;> rfl

@[simp] theorem State.txAdvance_rxBuf : s.txAdvance.rxBuf = s.rxBuf := by
  unfold State.txAdvance; split <;> rfl

@[simp] theorem State.txAdvance_rxWindow : s.txAdvance.rxWindow = s.rxWindow := by
  unfold State.txAdvance; split <;> rfl

@[simp] theorem State.txAdvance_outbound : s.txAdvance.outbound = s.outbound := by
  unfold State.txAdvance; split <;> rfl

@[simp] theorem State.txAdvance_inbound : s.txAdvance.inbound = s.inbound := by
  unfold State.txAdvance; split <;> rfl

@[simp] theorem State.txAdvance_pulses : s.txAdvance.pulses = s.pulses := by
  unfold State.txAdvance; split <;> rfl

@[simp] theorem State.txAdvance_events : s.txAdvance.events = s.events := by
  unfold State.txAdvance; split <;> rfl

@[simp] theorem State.txAdvance_schedule : s.txAdvance.schedule = s.schedule := by
  unfold State.txAdvance; split <;> rfl

/-- After the last byte the serializer is idle (R126). -/
theorem State.txAdvance_last (h : s.txIdx + 1 = s.txLen) :
    s.txAdvance = { s with txBusy := false, txIdx := 0 } := if_pos h

/-- After any other byte the position moves on (R126). -/
theorem State.txAdvance_more (h : s.txIdx + 1 ≠ s.txLen) :
    s.txAdvance = { s with txIdx := s.txIdx + 1 } := if_neg h

end Sys2Proof.Machine
end

