-- ==== Sys2Proof/Laws/Deframer.lean ====
section
/-! SUPPORT. What one `RX_BYTE` step can do, said once, case by case (44_deframer.md R181 to R186), and the laws of
`feed`. -/

namespace Sys2Proof.Machine

@[simp] theorem andThen_next (s : State) (f : State → Host.Outcome State Fault Refusal) :
    andThen (.next s) f = f s := rfl

theorem andThen_eq_next {o : Host.Outcome State Fault Refusal} {f : State → Host.Outcome State Fault Refusal}
    {t : State} (h : andThen o f = .next t) : ∃ s, o = .next s ∧ f s = .next t := by
  cases o with
  | next s => exact ⟨s, rfl, h⟩
  | fault r => cases h
  | refused r => cases h

/-- Everything `RX_BYTE(d)` can do: the six cases, guards included. -/
theorem rxByte_cases {d : Byte} {s t : State} (h : rxByte d s = .next t) :
    (s.rxState = .awaitSync ∧ d = sync ∧ t = { s with rxState := .awaitLength }) ∨
      (s.rxState = .awaitSync ∧ d ≠ sync ∧ t = s.emit (.rxDiscard d)) ∨
      (s.rxState = .awaitLength ∧ d.toNat < rxLenMin ∧ t = s.raiseFraming .badLength) ∨
      (s.rxState = .awaitLength ∧ rxLenMin ≤ d.toNat ∧
        t = { s with rxLen := d.toNat, rxRemaining := d.toNat, rxCrc := crcInit, rxState := .awaitPayload }) ∨
      (s.rxState = .awaitPayload ∧ s.rxRemaining ≠ 0 ∧ s.rxLen - s.rxRemaining < rxBufSize ∧
        t = { s with
          rxBuf := s.rxBuf.write (s.rxLen - s.rxRemaining) d
          rxWindow := 0
          rxCrc := crcByte s.rxCrc d
          rxRemaining := s.rxRemaining - 1
          rxState := if s.rxRemaining - 1 = 0 then .awaitChecksum else .awaitPayload }) ∨
      (s.rxState = .awaitChecksum ∧ d ≠ s.rxCrc ∧ t = s.raiseFraming .badChecksum) ∨
      (s.rxState = .awaitChecksum ∧ d = s.rxCrc ∧ ∃ response,
        (s.rxBuf.readBytes 0 s.rxLen).bind classify = some response ∧
        t = s.emitComplete response) := by
  cases hs : s.rxState <;> simp only [rxByte, hs] at h
  · unfold rxAwaitSync at h
    split at h <;> cases h <;> simp_all
  · unfold rxAwaitLength at h
    split at h
    · cases h; simp_all
    · cases h
      refine .inr (.inr (.inr (.inl ⟨rfl, by omega, rfl⟩)))
  · unfold rxAwaitPayload at h
    split at h
    · cases h
    · dsimp only at h
      split at h
      · cases h
        exact .inr (.inr (.inr (.inr (.inl ⟨rfl, ‹_›, ‹_›, rfl⟩))))
      · cases h
  · unfold rxAwaitChecksum at h
    split at h
    · split at h
      · rename_i hd _ r hr
        cases h
        exact .inr (.inr (.inr (.inr (.inr (.inr ⟨rfl, hd, r, hr, rfl⟩)))))
      · cases h
    · cases h
      exact .inr (.inr (.inr (.inr (.inr (.inl ⟨rfl, ‹_›, rfl⟩)))))

@[simp] theorem feed_nil (s : State) : feed [] s = .next s := rfl

theorem feed_cons (d : Byte) (rest : List Byte) (s : State) :
    feed (d :: rest) s = andThen (rxByte d s) (feed rest) := rfl

/-- A body has a class exactly when it has its status byte. -/
theorem classify_eq_none_iff (body : List Byte) : classify body = none ↔ body = [] := by
  cases body with
  | nil => exact ⟨fun _ => rfl, fun _ => rfl⟩
  | cons status data =>
    refine ⟨fun h => ?_, fun h => by simp at h⟩
    by_cases hs : status = statusOk <;> simp [classify, hs] at h

end Sys2Proof.Machine
end

