-- ==== Sys2Proof/Laws/Memory.lean ====
section
/-! SUPPORT. The laws of the byte buffers: read after write, the canonical form, blocks of bytes. -/

namespace Sys2Proof.Machine

/-! ### One byte -/

@[simp] theorem Memory.read_nil (a : Nat) : Memory.read [] a = none := rfl

theorem Memory.read_cons (c : Host.Cell) (m : Memory) (a : Nat) :
    Memory.read (c :: m) a = if c.1 = a then some c.2 else Memory.read m a := rfl

theorem Memory.read_write (m : Memory) (a k : Nat) (b : Byte) :
    (m.write a b).read k = if k = a then some b else m.read k := by
  induction m with
  | nil => simp [Memory.write, Memory.read_cons, eq_comm]
  | cons c rest ih =>
    simp only [Memory.write]
    split
    · simp [Memory.read_cons, eq_comm]
    · split
      · rename_i h1 h2
        subst h2
        by_cases hk : k = c.1
        · simp [Memory.read_cons, hk]
        · simp [Memory.read_cons, hk, Ne.symm hk]
      · rename_i h1 h2
        simp only [Memory.read_cons, ih]
        by_cases hc : c.1 = k
        · subst hc; simp [Ne.symm h2]
        · simp [hc]

@[simp] theorem Memory.read_write_same (m : Memory) (a : Nat) (b : Byte) : (m.write a b).read a = some b := by
  simp [Memory.read_write]

theorem Memory.read_write_other (m : Memory) {a k : Nat} (b : Byte) (h : k ≠ a) :
    (m.write a b).read k = m.read k := by
  simp [Memory.read_write, h]

/-! ### The canonical form -/

theorem Memory.wf_nil (size : Nat) : Memory.wf size [] := ⟨.nil, by simp⟩

theorem Memory.mem_write {m : Memory} {a : Nat} {b : Byte} {c : Host.Cell} (h : c ∈ m.write a b) :
    c = (a, b) ∨ c ∈ m := by
  induction m with
  | nil => simpa [Memory.write] using h
  | cons d rest ih =>
    simp only [Memory.write] at h
    split at h
    · simpa using h
    · split at h
      · rcases List.mem_cons.1 h with h | h
        · exact .inl h
        · exact .inr (List.mem_cons_of_mem _ h)
      · rcases List.mem_cons.1 h with h | h
        · exact .inr (h ▸ List.mem_cons_self)
        · exact (ih h).imp_right (List.mem_cons_of_mem _)

theorem Memory.rising_write {m : Memory} (h : m.Pairwise (fun x y => x.1 < y.1)) (a : Nat) (b : Byte) :
    (m.write a b).Pairwise (fun x y => x.1 < y.1) := by
  induction m with
  | nil => simp [Memory.write]
  | cons c rest ih =>
    obtain ⟨hc, hr⟩ := List.pairwise_cons.1 h
    simp only [Memory.write]
    split
    · rename_i ha
      refine List.pairwise_cons.2 ⟨fun x hx => ?_, h⟩
      rcases List.mem_cons.1 hx with rfl | hx
      · exact ha
      · exact ha.trans (hc x hx)
    · split
      · rename_i h1 h2
        exact List.pairwise_cons.2 ⟨fun x hx => h2 ▸ hc x hx, hr⟩
      · rename_i h1 h2
        refine List.pairwise_cons.2 ⟨fun x hx => ?_, ih hr⟩
        rcases Memory.mem_write hx with rfl | hx
        · show c.1 < a
          omega
        · exact hc x hx

/-- A store inside the buffer keeps the canonical form. -/
theorem Memory.wf_write {size : Nat} {m : Memory} (h : m.wf size) {a : Nat} (ha : a < size) (b : Byte) :
    (m.write a b).wf size := by
  refine ⟨Memory.rising_write h.1 a b, fun c hc => ?_⟩
  rcases Memory.mem_write hc with rfl | hc
  · exact ⟨ha, by simp [Memory.unlisted]⟩
  · exact h.2 c hc

theorem Memory.read_eq_none_of_lt {m : Memory} {a : Nat} (h : ∀ c ∈ m, a < c.1) : m.read a = none := by
  induction m with
  | nil => rfl
  | cons c rest ih =>
    rw [Memory.read_cons, if_neg (h c List.mem_cons_self).ne', ih fun x hx => h x (List.mem_cons_of_mem _ hx)]

/-- Two buffers in canonical form that read alike are the same data. -/
theorem Memory.eq_of_read_eq {m n : Memory} (hm : m.Pairwise (fun x y => x.1 < y.1))
    (hn : n.Pairwise (fun x y => x.1 < y.1)) (h : ∀ a, m.read a = n.read a) : m = n := by
  induction m generalizing n with
  | nil =>
    cases n with
    | nil => rfl
    | cons d n => have := h d.1; simp [Memory.read_cons] at this
  | cons c m ih =>
    obtain ⟨hc, hm'⟩ := List.pairwise_cons.1 hm
    cases n with
    | nil => have := h c.1; simp [Memory.read_cons] at this
    | cons d n =>
      obtain ⟨hd, hn'⟩ := List.pairwise_cons.1 hn
      have hk : c.1 = d.1 := by
        rcases lt_trichotomy c.1 d.1 with hlt | heq | hgt
        · have := h c.1
          rw [Memory.read_cons, if_pos rfl, Memory.read_eq_none_of_lt] at this
          · cases this
          · intro x hx
            rcases List.mem_cons.1 hx with rfl | hx
            · exact hlt
            · exact hlt.trans (hd x hx)
        · exact heq
        · have := h d.1
          rw [Memory.read_cons, Memory.read_cons (c := d), if_pos (rfl : d.1 = d.1), if_neg hgt.ne',
            Memory.read_eq_none_of_lt] at this
          · cases this
          · exact fun x hx => hgt.trans (hc x hx)
      have hv : c.2 = d.2 := by
        have := h c.1
        rw [Memory.read_cons, Memory.read_cons, if_pos rfl, if_pos hk.symm] at this
        exact Option.some.inj this
      have hcd : c = d := Prod.ext hk hv
      subst hcd
      refine congrArg _ (ih hm' hn' fun a => ?_)
      by_cases ha : c.1 = a
      · subst ha
        rw [Memory.read_eq_none_of_lt hc, Memory.read_eq_none_of_lt hd]
      · have := h a
        rwa [Memory.read_cons, Memory.read_cons, if_neg ha, if_neg ha] at this

/-! ### Blocks of bytes -/

@[simp] theorem Memory.readBytes_zero (m : Memory) (i : Nat) : m.readBytes i 0 = some [] := rfl

theorem Memory.readBytes_succ (m : Memory) (i n : Nat) :
    m.readBytes i (n + 1) = (m.read i).bind fun b => (m.readBytes (i + 1) n).map (b :: ·) := by
  rw [Memory.readBytes]
  cases m.read i <;> cases m.readBytes (i + 1) n <;> rfl

@[simp] theorem Memory.writeBytes_nil (m : Memory) (i : Nat) : m.writeBytes i [] = m := rfl

theorem Memory.writeBytes_cons (m : Memory) (i : Nat) (b : Byte) (bs : List Byte) :
    m.writeBytes i (b :: bs) = (m.write i b).writeBytes (i + 1) bs := rfl

/-- A block store leaves every byte outside the block alone. -/
theorem Memory.read_writeBytes_outside (m : Memory) (i : Nat) (bs : List Byte) {a : Nat}
    (h : a < i ∨ i + bs.length ≤ a) : (m.writeBytes i bs).read a = m.read a := by
  induction bs generalizing m i with
  | nil => rfl
  | cons b bs ih =>
    rw [List.length_cons] at h
    rw [Memory.writeBytes_cons, ih _ _ (by omega), Memory.read_write_other _ _ (by omega)]

theorem Memory.readBytes_congr {m n : Memory} {i k : Nat} (h : ∀ a, i ≤ a → a < i + k → m.read a = n.read a) :
    m.readBytes i k = n.readBytes i k := by
  induction k generalizing i with
  | zero => rfl
  | succ k ih =>
    rw [Memory.readBytes_succ, Memory.readBytes_succ, h i le_rfl (by omega),
      ih fun a h1 h2 => h a (by omega) (by omega)]

/-- A block reads back as it was stored. -/
theorem Memory.readBytes_writeBytes (m : Memory) (i : Nat) (bs : List Byte) :
    (m.writeBytes i bs).readBytes i bs.length = some bs := by
  induction bs generalizing m i with
  | nil => rfl
  | cons b bs ih =>
    rw [List.length_cons, Memory.readBytes_succ, Memory.writeBytes_cons, ih,
      Memory.read_writeBytes_outside _ _ _ (by omega), Memory.read_write_same]
    rfl

/-- A block store inside the buffer keeps the canonical form. -/
theorem Memory.wf_writeBytes {size : Nat} {m : Memory} (h : m.wf size) (i : Nat) (bs : List Byte)
    (hb : i + bs.length ≤ size) : (m.writeBytes i bs).wf size := by
  induction bs generalizing m i with
  | nil => exact h
  | cons b bs ih =>
    rw [List.length_cons] at hb
    exact ih (Memory.wf_write h (by omega) b) (i + 1) (by omega)

theorem Memory.readBytes_length {m : Memory} {i n : Nat} {bs : List Byte} (h : m.readBytes i n = some bs) :
    bs.length = n := by
  induction n generalizing i bs with
  | zero => simp at h; simp [← h]
  | succ n ih =>
    rw [Memory.readBytes_succ] at h
    obtain ⟨b, -, h⟩ := Option.bind_eq_some_iff.1 h
    obtain ⟨r, hr, rfl⟩ := Option.map_eq_some_iff.1 h
    simp [ih hr]

/-- One byte of a block that has been read. -/
theorem Memory.read_of_readBytes {m : Memory} {i n : Nat} {bs : List Byte} (h : m.readBytes i n = some bs)
    {k : Nat} (hk : k < n) : m.read (i + k) = bs[k]? := by
  induction n generalizing i k bs with
  | zero => omega
  | succ n ih =>
    rw [Memory.readBytes_succ] at h
    obtain ⟨b, hb, h⟩ := Option.bind_eq_some_iff.1 h
    obtain ⟨r, hr, rfl⟩ := Option.map_eq_some_iff.1 h
    cases k with
    | zero => simpa using hb
    | succ k => simpa [Nat.add_assoc, Nat.add_comm 1 k] using ih hr (by omega : k < n)

/-- A block one byte longer: the block and its last byte. -/
theorem Memory.readBytes_snoc (m : Memory) (i n : Nat) {bs : List Byte} {b : Byte}
    (h : m.readBytes i n = some bs) (hb : m.read (i + n) = some b) : m.readBytes i (n + 1) = some (bs ++ [b]) := by
  induction n generalizing i bs with
  | zero =>
    obtain rfl : bs = [] := by simpa using h.symm
    rw [Nat.add_zero] at hb
    simp [Memory.readBytes_succ, hb]
  | succ n ih =>
    rw [Memory.readBytes_succ] at h
    obtain ⟨c, hc, h⟩ := Option.bind_eq_some_iff.1 h
    obtain ⟨r, hr, rfl⟩ := Option.map_eq_some_iff.1 h
    rw [Memory.readBytes_succ, hc, ih (i + 1) hr (by rw [← hb]; congr 1; omega)]
    rfl

/-- A block without its first `k` bytes. -/
theorem Memory.readBytes_drop {m : Memory} {i n k : Nat} {bs : List Byte} (h : m.readBytes i n = some bs)
    (hk : k ≤ n) : m.readBytes (i + k) (n - k) = some (bs.drop k) := by
  induction k generalizing i n bs with
  | zero => simpa using h
  | succ k ih =>
    cases n with
    | zero => omega
    | succ n =>
      rw [Memory.readBytes_succ] at h
      obtain ⟨b, hb, h⟩ := Option.bind_eq_some_iff.1 h
      obtain ⟨r, hr, rfl⟩ := Option.map_eq_some_iff.1 h
      simpa [Nat.add_assoc, Nat.add_comm 1 k] using ih hr (by omega)

/-- The first `k` bytes of a block. -/
theorem Memory.readBytes_take {m : Memory} {i n k : Nat} {bs : List Byte} (h : m.readBytes i n = some bs)
    (hk : k ≤ n) : m.readBytes i k = some (bs.take k) := by
  induction k generalizing i n bs with
  | zero => simp
  | succ k ih =>
    cases n with
    | zero => omega
    | succ n =>
      rw [Memory.readBytes_succ] at h
      obtain ⟨b, hb, h⟩ := Option.bind_eq_some_iff.1 h
      obtain ⟨r, hr, rfl⟩ := Option.map_eq_some_iff.1 h
      rw [Memory.readBytes_succ, hb, ih hr (by omega)]
      rfl

end Sys2Proof.Machine
end

