-- ==== Sys2Proof/Laws/Exec.lean ====
section
/-! SUPPORT. What a `CMD_ACCEPT` step can do, said once: every command is the acceptance of its layout. -/

namespace Sys2Proof.Machine

/-- Every command's meaning is the acceptance of its row of the catalog. -/
theorem exec_eq_accept (i : Instr) (s : State) : exec i s = accept (layoutOf s.config i) s := by
  cases i <;> rfl

@[simp] theorem frame_length (l : Layout) : (frame l).length = l.payload.length + 4 := by
  simp [frame, Layout.body]

/-- Not enabled while busy (R123). -/
theorem accept_busy (l : Layout) {s : State} (h : s.txBusy = true) : accept l s = .next s := by
  simp [accept, h]

/-- A payload that fits is framed and loaded (R124). -/
theorem accept_fits {l : Layout} {s : State} (h : s.txBusy = false) (hl : l.payload.length ≤ txPayloadMax) :
    accept l s = .next (s.loadFrame (frame l)) := by
  simp [accept, h, hl]

/-- A payload that is too long is refused (R125). -/
theorem accept_tooLong {l : Layout} {s : State} (h : s.txBusy = false) (hl : txPayloadMax < l.payload.length) :
    accept l s = .next (s.emit (.cmdRefused .tooLong)) := by
  simp [accept, h, Nat.not_le.2 hl]

/-- Everything the acceptance of a layout can do. -/
theorem accept_cases {l : Layout} {s t : State} (h : accept l s = .next t) :
    (s.txBusy = true ∧ t = s) ∨
      (s.txBusy = false ∧ l.payload.length ≤ txPayloadMax ∧ t = s.loadFrame (frame l)) ∨
      (s.txBusy = false ∧ txPayloadMax < l.payload.length ∧ t = s.emit (.cmdRefused .tooLong)) := by
  cases hb : s.txBusy with
  | true =>
    rw [accept_busy l hb] at h
    exact .inl ⟨rfl, (Host.Outcome.next.inj h).symm⟩
  | false =>
    by_cases hl : l.payload.length ≤ txPayloadMax
    · rw [accept_fits hb hl] at h
      exact .inr (.inl ⟨rfl, hl, (Host.Outcome.next.inj h).symm⟩)
    · rw [accept_tooLong hb (by omega)] at h
      exact .inr (.inr ⟨rfl, by omega, (Host.Outcome.next.inj h).symm⟩)

/-- Loading a frame is taking it up: the bytes are there, the others as before, nothing else changed. -/
theorem takesUp_loadFrame (s : State) (f : List Byte) : s.TakesUp f (s.loadFrame f) :=
  ⟨Memory.readBytes_writeBytes _ _ _, fun a ha => Memory.read_writeBytes_outside _ _ _ (.inr (by omega)), rfl⟩

end Sys2Proof.Machine
end

