-- ==== Sys2Proof/Laws/Operands.lean ====
section
/-! SUPPORT. The small lemmas of the field serializers: lengths, and the bytes of a field that fits (00_scope.md
R12). -/

namespace Sys2Proof.Machine

@[simp] theorem le_length (n : Nat) (v : Int) : (le n v).length = n := by simp [le]

@[simp] theorem be_length (n : Nat) (v : Int) : (be n v).length = n := by simp [be]

@[simp] theorem u8_length (v : Int) : (u8 v).length = 1 := le_length 1 v

@[simp] theorem u16le_length (v : Int) : (u16le v).length = 2 := le_length 2 v

@[simp] theorem u16be_length (v : Int) : (u16be v).length = 2 := be_length 2 v

@[simp] theorem u32le_length (v : Int) : (u32le v).length = 4 := le_length 4 v

@[simp] theorem i32le_length (v : Int) : (i32le v).length = 4 := le_length 4 v

/-- A byte is its own image. -/
@[simp] theorem u8_toNat (b : Byte) : u8 b.toNat = [b] := by
  simp [u8, le, List.range_succ]

/-- The little-endian image of a half: low byte, high byte. -/
theorem u16le_toNat (h : Half) : u16le h.toNat = [h.extractLsb' 0 8, h.extractLsb' 8 8] := by
  simp [u16le, le, List.range_succ]

/-- The big-endian image of a half: high byte, low byte. -/
theorem u16be_toNat (h : Half) : u16be h.toNat = [h.extractLsb' 8 8, h.extractLsb' 0 8] := by
  simp [u16be, be, le, List.range_succ]

/-- The little-endian image of a word. -/
theorem u32le_toNat (w : Word) :
    u32le w.toNat = [w.extractLsb' 0 8, w.extractLsb' 8 8, w.extractLsb' 16 8, w.extractLsb' 24 8] := by
  simp [u32le, le, List.range_succ]

/-- The image of a signed word is that of its two's-complement bits. -/
theorem i32le_toInt (w : Word) :
    i32le w.toInt = [w.extractLsb' 0 8, w.extractLsb' 8 8, w.extractLsb' 16 8, w.extractLsb' 24 8] := by
  simp [i32le, le, List.range_succ]

end Sys2Proof.Machine
end

