-- ==== Sys2Proof/Laws/PerInstr.lean ====
section
/-! SUPPORT. Statements about every command as syntax, one lemma per constructor. -/

/-- The payload of a well-formed command is at most 254 bytes, so `Frame` is defined (41_frame_serializer.md R122). -/
def Sys2Proof.Laws.PayloadFits.Statement (i : Sys2Proof.Instr) : Prop :=
  i.wf = true → ∀ config, (Sys2Proof.Machine.layoutOf config i).payload.length ≤ Sys2Proof.Machine.txPayloadMax

namespace Sys2Proof.Laws.PayloadFits
open Sys2Proof.Machine

theorem getVersion : Statement .getVersion := fun _ _ => by simp [layoutOf, layoutGetVersion, txPayloadMax]
theorem init : Statement .init := fun _ _ => by simp [layoutOf, layoutInit, txPayloadMax]
theorem availableBufferSize : Statement .availableBufferSize := fun _ _ => by simp [layoutOf, layoutAvailableBufferSize, txPayloadMax]
theorem clearBuffer : Statement .clearBuffer := fun _ _ => by simp [layoutOf, layoutClearBuffer, txPayloadMax]
theorem abort : Statement .abort := fun _ _ => by simp [layoutOf, layoutAbort, txPayloadMax]
theorem pause : Statement .pause := fun _ _ => by simp [layoutOf, layoutPause, txPayloadMax]
theorem toolQuery (toolIndex : Byte) (subQuery : List Byte)
    : Statement (.toolQuery toolIndex subQuery) := fun h _ => by
  have h : subQuery.length ≤ 253 := of_decide_eq_true h
  simp [layoutOf, layoutToolQuery, txPayloadMax]; omega
theorem isFinished : Statement .isFinished := fun _ _ => by simp [layoutOf, layoutIsFinished, txPayloadMax]
theorem eepromRead (offset : Half) (nBytes : Byte)
    : Statement (.eepromRead offset nBytes) := fun _ _ => by simp [layoutOf, layoutEepromRead, txPayloadMax]
theorem eepromWrite (offset : Half) (nBytes : Byte) (data : List Byte)
    : Statement (.eepromWrite offset nBytes data) := fun h _ => by
  have h : data.length ≤ 251 := of_decide_eq_true h
  simp [layoutOf, layoutEepromWrite, txPayloadMax]; omega
theorem reset : Statement .reset := fun _ _ => by simp [layoutOf, layoutReset, txPayloadMax]
theorem getCurrentPosition : Statement .getCurrentPosition := fun _ _ => by simp [layoutOf, layoutGetCurrentPosition, txPayloadMax]
theorem delay (durationUs : Word) : Statement (.delay durationUs) := fun _ _ => by simp [layoutOf, layoutDelay, txPayloadMax]
theorem getMotherboardStatus : Statement .getMotherboardStatus := fun _ _ => by simp [layoutOf, layoutGetMotherboardStatus, txPayloadMax]
theorem homeAxesMinimum (axes : AxisSet) (feedrate : Word) (timeoutSec : Half)
    : Statement (.homeAxesMinimum axes feedrate timeoutSec) := fun _ _ => by simp [layoutOf, layoutHomeAxesMinimum, txPayloadMax]
theorem homeAxesMaximum (axes : AxisSet) (feedrate : Word) (timeoutSec : Half)
    : Statement (.homeAxesMaximum axes feedrate timeoutSec) := fun _ _ => by simp [layoutOf, layoutHomeAxesMaximum, txPayloadMax]
theorem changeTool (toolId : Byte) : Statement (.changeTool toolId) := fun _ _ => by simp [layoutOf, layoutChangeTool, txPayloadMax]
theorem waitForToolReady (toolId : Byte) (queryDelayMs timeoutSec : Half)
    : Statement (.waitForToolReady toolId queryDelayMs timeoutSec) := fun _ _ => by simp [layoutOf, layoutWaitForToolReady, txPayloadMax]
theorem enableDisableAxes (axes : AxisSet) (enable : Bool)
    : Statement (.enableDisableAxes axes enable) := fun _ _ => by simp [layoutOf, layoutEnableDisableAxes, txPayloadMax]
theorem queueExtendedPointLegacy (x y z a b : Word) (feedrateUs : Word)
    : Statement (.queueExtendedPointLegacy x y z a b feedrateUs) := fun _ _ => by simp [layoutOf, layoutQueueExtendedPointLegacy, txPayloadMax]
theorem setExtendedPosition (x y z a b : Word)
    : Statement (.setExtendedPosition x y z a b) := fun _ _ => by simp [layoutOf, layoutSetExtendedPosition, txPayloadMax]
theorem waitForPlatformReady (toolId : Byte) (queryDelayMs timeoutSec : Half)
    : Statement (.waitForPlatformReady toolId queryDelayMs timeoutSec) := fun _ _ => by simp [layoutOf, layoutWaitForPlatformReady, txPayloadMax]
theorem queueExtendedPoint (x y z a b : Word) (durationUs : Word) (axes : AxisSet)
    : Statement (.queueExtendedPoint x y z a b durationUs axes) := fun _ _ => by simp [layoutOf, layoutQueueExtendedPoint, txPayloadMax]
theorem setRgbLed (red green blue blinkRate : Byte)
    : Statement (.setRgbLed red green blue blinkRate) := fun _ _ => by simp [layoutOf, layoutSetRgbLed, txPayloadMax]
theorem toolAction (toolId actionId : Byte) (payload : List Byte)
    : Statement (.toolAction toolId actionId payload) := fun h _ => by
  have h : payload.length ≤ 252 := of_decide_eq_true h
  simp [layoutOf, layoutToolAction, txPayloadMax]; omega

end Sys2Proof.Laws.PayloadFits

/-- The descriptor of a command carries a catalog tag, never one of 25..31 (30_encoding.md R85, R87). -/
def Sys2Proof.Laws.TagInCatalog.Statement (i : Sys2Proof.Instr) : Prop :=
  (Sys2Proof.encode i).tag.toNat ≤ 24

namespace Sys2Proof.Laws.TagInCatalog

theorem getVersion : Statement .getVersion := show (0#5).toNat ≤ 24 by decide
theorem init : Statement .init := show (1#5).toNat ≤ 24 by decide
theorem availableBufferSize : Statement .availableBufferSize := show (2#5).toNat ≤ 24 by decide
theorem clearBuffer : Statement .clearBuffer := show (3#5).toNat ≤ 24 by decide
theorem abort : Statement .abort := show (4#5).toNat ≤ 24 by decide
theorem pause : Statement .pause := show (5#5).toNat ≤ 24 by decide
theorem toolQuery (toolIndex : Byte) (subQuery : List Byte)
    : Statement (.toolQuery toolIndex subQuery) := show (6#5).toNat ≤ 24 by decide
theorem isFinished : Statement .isFinished := show (7#5).toNat ≤ 24 by decide
theorem eepromRead (offset : Half) (nBytes : Byte)
    : Statement (.eepromRead offset nBytes) := show (8#5).toNat ≤ 24 by decide
theorem eepromWrite (offset : Half) (nBytes : Byte) (data : List Byte)
    : Statement (.eepromWrite offset nBytes data) := show (9#5).toNat ≤ 24 by decide
theorem reset : Statement .reset := show (10#5).toNat ≤ 24 by decide
theorem getCurrentPosition : Statement .getCurrentPosition := show (11#5).toNat ≤ 24 by decide
theorem delay (durationUs : Word) : Statement (.delay durationUs) := show (12#5).toNat ≤ 24 by decide
theorem getMotherboardStatus : Statement .getMotherboardStatus := show (13#5).toNat ≤ 24 by decide
theorem homeAxesMinimum (axes : AxisSet) (feedrate : Word) (timeoutSec : Half)
    : Statement (.homeAxesMinimum axes feedrate timeoutSec) := show (14#5).toNat ≤ 24 by decide
theorem homeAxesMaximum (axes : AxisSet) (feedrate : Word) (timeoutSec : Half)
    : Statement (.homeAxesMaximum axes feedrate timeoutSec) := show (15#5).toNat ≤ 24 by decide
theorem changeTool (toolId : Byte) : Statement (.changeTool toolId) := show (16#5).toNat ≤ 24 by decide
theorem waitForToolReady (toolId : Byte) (queryDelayMs timeoutSec : Half)
    : Statement (.waitForToolReady toolId queryDelayMs timeoutSec) := show (17#5).toNat ≤ 24 by decide
theorem enableDisableAxes (axes : AxisSet) (enable : Bool)
    : Statement (.enableDisableAxes axes enable) := show (18#5).toNat ≤ 24 by decide
theorem queueExtendedPointLegacy (x y z a b : Word) (feedrateUs : Word)
    : Statement (.queueExtendedPointLegacy x y z a b feedrateUs) := show (19#5).toNat ≤ 24 by decide
theorem setExtendedPosition (x y z a b : Word)
    : Statement (.setExtendedPosition x y z a b) := show (20#5).toNat ≤ 24 by decide
theorem waitForPlatformReady (toolId : Byte) (queryDelayMs timeoutSec : Half)
    : Statement (.waitForPlatformReady toolId queryDelayMs timeoutSec) := show (21#5).toNat ≤ 24 by decide
theorem queueExtendedPoint (x y z a b : Word) (durationUs : Word) (axes : AxisSet)
    : Statement (.queueExtendedPoint x y z a b durationUs axes) := show (22#5).toNat ≤ 24 by decide
theorem setRgbLed (red green blue blinkRate : Byte)
    : Statement (.setRgbLed red green blue blinkRate) := show (23#5).toNat ≤ 24 by decide
theorem toolAction (toolId actionId : Byte) (payload : List Byte)
    : Statement (.toolAction toolId actionId payload) := show (24#5).toNat ≤ 24 by decide

end Sys2Proof.Laws.TagInCatalog
end

