-- ==== Sys2Proof/Laws/Step.lean ====
section
/-! SUPPORT. What one step of the machine can do, said once: the head of the schedule, performed. -/

namespace Sys2Proof.Machine

/-- With nothing scheduled the block waits. -/
theorem step_idle {s : State} (h : s.schedule = []) : step s = .next (s.beginStep []) := by
  simp [step, h]

/-- A step performs the head of the schedule. -/
theorem step_scheduled {s : State} {a : Action} {rest : List Action} (h : s.schedule = a :: rest) :
    step s = perform a (s.beginStep rest) := by
  simp [step, h]

/-- Everything `CMD_ACCEPT(d)` can do. -/
theorem cmdAccept_cases {d : Descriptor} {s t : State} (h : cmdAccept d s = .next t) :
    (s.txBusy = true ∧ t = s) ∨
      (s.txBusy = false ∧ ∃ reason, decode d = .error reason ∧ t = s.emit (.cmdRefused reason)) ∨
      (s.txBusy = false ∧ ∃ i, decode d = .ok i ∧ exec i s = .next t) := by
  unfold cmdAccept at h
  split at h
  · cases h; exact .inl ⟨‹_›, rfl⟩
  · rename_i hb
    have hb : s.txBusy = false := by simpa using hb
    split at h
    · exact .inr (.inr ⟨hb, _, ‹_›, h⟩)
    · cases h; exact .inr (.inl ⟨hb, _, ‹_›, rfl⟩)

/-- The same, with the command resolved to its effect on the state: not taken, refused, or its frame loaded. -/
theorem cmdAccept_effect {d : Descriptor} {s t : State} (h : cmdAccept d s = .next t) :
    (s.txBusy = true ∧ t = s) ∨
      (s.txBusy = false ∧ ∃ reason, t = s.emit (.cmdRefused reason)) ∨
      (s.txBusy = false ∧ ∃ l : Layout, l.payload.length ≤ txPayloadMax ∧ t = s.loadFrame (frame l)) := by
  rcases cmdAccept_cases h with h | ⟨hb, reason, -, h⟩ | ⟨hb, i, -, h⟩
  · exact .inl h
  · exact .inr (.inl ⟨hb, reason, h⟩)
  · rw [exec_eq_accept] at h
    rcases accept_cases h with ⟨hb', -⟩ | ⟨-, hl, h⟩ | ⟨-, -, h⟩
    · rw [hb] at hb'; cases hb'
    · exact .inr (.inr ⟨hb, _, hl, h⟩)
    · exact .inr (.inl ⟨hb, _, h⟩)

/-- Everything `TX_EMIT` can do. -/
theorem txEmit_cases {s t : State} (h : txEmit s = .next t) :
    (s.txBusy = false ∧ t = s) ∨
      (s.txBusy = true ∧ ∃ b, s.txBuf.read s.txIdx = some b ∧ t = (s.txPut b).txAdvance) := by
  unfold txEmit at h
  split at h
  · split at h
    · cases h; exact .inr ⟨‹_›, _, ‹_›, rfl⟩
    · cases h
  · rename_i hb
    cases h; exact .inl ⟨by simpa using hb, rfl⟩

/-- Everything `RX_TIMEOUT` can do. -/
theorem rxTimeout_cases (s : State) :
    (s.rxState = .awaitSync ∧ rxTimeout s = s) ∨
      (s.rxState ≠ .awaitSync ∧ rxTimeout s = { s with rxRemaining := 0 }.raiseFraming .truncated) := by
  unfold rxTimeout
  split
  · exact .inl ⟨‹_›, rfl⟩
  · exact .inr ⟨‹_›, rfl⟩

/-- Everything a step can do: wait, or one of the five steps. -/
theorem step_cases {s t : State} (h : step s = .next t) :
    (s.schedule = [] ∧ t = s.beginStep []) ∨
      ∃ rest,
        (∃ d, s.schedule = .cmdAccept d :: rest ∧ cmdAccept d (s.beginStep rest) = .next t) ∨
        (s.schedule = .txEmit :: rest ∧ txEmit (s.beginStep rest) = .next t) ∨
        (s.schedule = .rxByte :: rest ∧ s.inbound = [] ∧ t = s.beginStep rest) ∨
        (∃ d more, s.schedule = .rxByte :: rest ∧ s.inbound = d :: more ∧
          rxByte d { s.beginStep rest with inbound := more } = .next t) ∨
        (s.schedule = .rxTimeout :: rest ∧ t = rxTimeout (s.beginStep rest)) ∨
        (s.schedule = .reset :: rest ∧ t = (s.beginStep rest).resetBlock) := by
  cases hs : s.schedule with
  | nil =>
    rw [step_idle hs] at h
    exact .inl ⟨rfl, (Host.Outcome.next.inj h).symm⟩
  | cons a rest =>
    rw [step_scheduled hs] at h
    refine .inr ⟨rest, ?_⟩
    cases a with
    | cmdAccept d => exact .inl ⟨d, rfl, h⟩
    | txEmit => exact .inr (.inl ⟨rfl, h⟩)
    | rxByte =>
      simp only [perform, takeInbound, State.beginStep_inbound] at h
      split at h
      · cases h; exact .inr (.inr (.inl ⟨rfl, ‹_›, rfl⟩))
      · exact .inr (.inr (.inr (.inl ⟨_, _, rfl, ‹_›, h⟩)))
    | rxTimeout => cases h; exact .inr (.inr (.inr (.inr (.inl ⟨rfl, rfl⟩))))
    | reset => cases h; exact .inr (.inr (.inr (.inr (.inr ⟨rfl, rfl⟩))))

/-- One more step at the end. -/
theorem steps_succ (n : Nat) (s : State) : steps (n + 1) s = andThen (steps n s) step := by
  induction n generalizing s with
  | zero =>
    show andThen (step s) (steps 0) = step s
    cases step s <;> rfl
  | succ n ih =>
    show andThen (step s) (steps (n + 1)) = andThen (andThen (step s) (steps n)) step
    cases step s with
    | next t => exact ih t
    | fault => rfl
    | refused => rfl

end Sys2Proof.Machine
end

