-- ==== Sys2Proof/Tests/Slice0.lean ====
section
/-! SUPPORT. The model's own tests: the checks of WellFormed, a decoding and a frame of every command, the checksum,
single steps of the deframer, reset, and a witness for the hypotheses of every statement. Expected values are from
95_test_vectors.md and the rules named. -/

namespace Sys2Proof.Tests

open Sys2Proof.Machine

set_option Elab.async false

/-! ### Helpers -/

/-- A byte string in the array slot `v`; what follows it is junk the block must not read. -/
def slotV (bytes : List Byte) : Vector Byte 253 := packBytes (bytes ++ [0xEE, 0xEE])

/-- The state an outcome goes on with. -/
def after : Host.Outcome State Fault Refusal → Option State
  | .next t => some t
  | .fault _ => none
  | .refused _ => none

/-- The frame an accepted command leaves to be sent. -/
def sent (o : Host.Outcome State Fault Refusal) : Option (List Byte) :=
  (after o).bind fun t => if t.txBusy then t.txBuf.readBytes 0 t.txLen else none

/-- The events of feeding bytes to the reset block, and the state of the deframer after them. -/
def received (bytes : List Byte) : Option (List Event × RxState) :=
  (after (feed bytes State.reset)).map fun t => (t.events, t.rxState)

/-- The reset block with this one step scheduled. -/
def scheduled (a : Action) : State := { State.reset with schedule := [a] }

/-- The block with GetVersion's frame taken up and `k` bytes of it sent. -/
def sending (k : Nat) : State :=
  { State.reset with
    txBusy := true, txIdx := k, txLen := 4, txBuf := [(0, 0xD5), (1, 0x01), (2, 0x00), (3, 0x00)] }

/-- The block inside a response `D5 02 00 64 ..` with `k` body bytes to come. -/
def receiving (k : Nat) (rxState : RxState) : State :=
  { State.reset with rxState, rxLen := 2, rxRemaining := k, rxCrc := 0x04
                     rxBuf := [(0, 0x00), (1, 0x64)] }

/-- The state with this one byte on the inbound stream and its step scheduled. -/
def taking (d : Byte) (s : State) : State := { s with schedule := [.rxByte], inbound := [d] }

/-! ### WellFormed: one ill-formed command for each check (R88) -/

theorem test_wfToolQuery : (Instr.toolQuery 0 (List.replicate 254 0)).wf = false := by decide +kernel

theorem test_wfEepromWrite : (Instr.eepromWrite 0 0 (List.replicate 252 0)).wf = false := by decide +kernel

theorem test_wfToolAction : (Instr.toolAction 0 0 (List.replicate 253 0)).wf = false := by decide +kernel

theorem test_wfAtTheCaps :
    (Instr.toolQuery 0 (List.replicate 253 0)).wf = true ∧
      (Instr.eepromWrite 0 0 (List.replicate 251 0)).wf = true ∧
      (Instr.toolAction 0 0 (List.replicate 252 0)).wf = true := by
  decide +kernel

/-! ### Every command: its descriptor decoded, and its frame -/

/-- V-00-1, F-9: no slot is bound (95_test_vectors.md); slots by 30_encoding.md R86. -/
theorem test_decodeGetVersion :
    decode { Descriptor.ofTag 0 with vlen := 255, w0 := 7 } = .ok .getVersion := by
  decide +kernel

theorem test_frameGetVersion :
    sent (exec .getVersion State.reset) = some [0xD5, 0x01, 0x00, 0x00] := by
  decide +kernel

/-- V-01-1 (95_test_vectors.md); tag by 30_encoding.md R85. -/
theorem test_decodeInit : decode (.ofTag 1) = .ok .init := by decide +kernel

theorem test_frameInit :
    sent (exec .init State.reset) = some [0xD5, 0x01, 0x01, 0x5E] := by
  decide +kernel

/-- V-02-1 (95_test_vectors.md); tag by 30_encoding.md R85. -/
theorem test_decodeAvailableBufferSize : decode (.ofTag 2) = .ok .availableBufferSize := by decide +kernel

theorem test_frameAvailableBufferSize :
    sent (exec .availableBufferSize State.reset) = some [0xD5, 0x01, 0x02, 0xBC] := by
  decide +kernel

/-- V-03-1 (95_test_vectors.md); tag by 30_encoding.md R85. -/
theorem test_decodeClearBuffer : decode (.ofTag 3) = .ok .clearBuffer := by decide +kernel

theorem test_frameClearBuffer :
    sent (exec .clearBuffer State.reset) = some [0xD5, 0x01, 0x03, 0xE2] := by
  decide +kernel

/-- V-07-1 (95_test_vectors.md); tag by 30_encoding.md R85. -/
theorem test_decodeAbort : decode (.ofTag 4) = .ok .abort := by decide +kernel

theorem test_frameAbort :
    sent (exec .abort State.reset) = some [0xD5, 0x01, 0x07, 0x83] := by
  decide +kernel

/-- V-08-1 (95_test_vectors.md); tag by 30_encoding.md R85. -/
theorem test_decodePause : decode (.ofTag 5) = .ok .pause := by decide +kernel

theorem test_framePause :
    sent (exec .pause State.reset) = some [0xD5, 0x01, 0x08, 0xC2] := by
  decide +kernel

/-- V-0A-4: the index wraps, the string ends at vlen (95_test_vectors.md); slots by 30_encoding.md R86. -/
theorem test_decodeToolQuery :
    decode { Descriptor.ofTag 6 with w0 := 256, vlen := 1, v := slotV [0x02, 0xEE] } = .ok (.toolQuery 0 [0x02]) := by
  decide +kernel

theorem test_frameToolQuery :
    sent (exec (.toolQuery 0 [0x02]) State.reset) = some [0xD5, 0x03, 0x0A, 0x00, 0x02, 0xD6] := by
  decide +kernel

/-- V-0B-1 (95_test_vectors.md); tag by 30_encoding.md R85. -/
theorem test_decodeIsFinished : decode (.ofTag 7) = .ok .isFinished := by decide +kernel

theorem test_frameIsFinished :
    sent (exec .isFinished State.reset) = some [0xD5, 0x01, 0x0B, 0x20] := by
  decide +kernel

/-- V-0C-2: both wrap, the offset is big-endian (95_test_vectors.md); slots by 30_encoding.md R86. -/
theorem test_decodeEepromRead :
    decode { Descriptor.ofTag 8 with w0 := 0x10102, w1 := 0x110 } = .ok (.eepromRead 0x0102 16) := by
  decide +kernel

theorem test_frameEepromRead :
    sent (exec (.eepromRead 0x0102 16) State.reset) = some [0xD5, 0x04, 0x0C, 0x01, 0x02, 0x10, 0xB5] := by
  decide +kernel

/-- V-0D-1: the offset is little-endian (95_test_vectors.md); slots by 30_encoding.md R86. -/
theorem test_decodeEepromWrite :
    decode { Descriptor.ofTag 9 with w0 := 0x0102, w1 := 2, vlen := 2, v := slotV [0xAA, 0xBB] } = .ok (.eepromWrite
      0x0102 2 [0xAA, 0xBB]) := by
  decide +kernel

theorem test_frameEepromWrite :
    sent (exec (.eepromWrite 0x0102 2 [0xAA, 0xBB]) State.reset) = some [0xD5, 0x06, 0x0D, 0x02, 0x01, 0x02, 0xAA,
      0xBB, 0x12] := by
  decide +kernel

/-- V-11-1 (95_test_vectors.md); tag by 30_encoding.md R85. -/
theorem test_decodeReset : decode (.ofTag 10) = .ok .reset := by decide +kernel

theorem test_frameReset :
    sent (exec .reset State.reset) = some [0xD5, 0x01, 0x11, 0xC3] := by
  decide +kernel

/-- V-15-1 (95_test_vectors.md); tag by 30_encoding.md R85. -/
theorem test_decodeGetCurrentPosition : decode (.ofTag 11) = .ok .getCurrentPosition := by decide +kernel

theorem test_frameGetCurrentPosition :
    sent (exec .getCurrentPosition State.reset) = some [0xD5, 0x01, 0x15, 0xA2] := by
  decide +kernel

/-- V-15D-1 (95_test_vectors.md); slots by 30_encoding.md R86. -/
theorem test_decodeDelay :
    decode { Descriptor.ofTag 12 with w0 := 1000000 } = .ok (.delay 1000000) := by
  decide +kernel

theorem test_frameDelay :
    sent (exec (.delay 1000000) State.reset) = some [0xD5, 0x05, 0x15, 0x40, 0x42, 0x0F, 0x00, 0x28] := by
  decide +kernel

/-- V-17-1 (95_test_vectors.md); tag by 30_encoding.md R85. -/
theorem test_decodeGetMotherboardStatus : decode (.ofTag 13) = .ok .getMotherboardStatus := by decide +kernel

theorem test_frameGetMotherboardStatus :
    sent (exec .getMotherboardStatus State.reset) = some [0xD5, 0x01, 0x17, 0x1E] := by
  decide +kernel

/-- V-83-1 (95_test_vectors.md); slots by 30_encoding.md R86. -/
theorem test_decodeHomeAxesMinimum :
    decode { Descriptor.ofTag 14 with m := 0b00011, w0 := 500, w1 := 20 } = .ok (.homeAxesMinimum 0b00011 500 20) := by
  decide +kernel

theorem test_frameHomeAxesMinimum :
    sent (exec (.homeAxesMinimum 0b00011 500 20) State.reset) = some [0xD5, 0x08, 0x83, 0x03, 0xF4, 0x01, 0x00, 0x00,
      0x14, 0x00, 0xA4] := by
  decide +kernel

/-- V-84-1, the timeout wrapping as in V-84-2 (95_test_vectors.md); slots by 30_encoding.md R86. -/
theorem test_decodeHomeAxesMaximum :
    decode { Descriptor.ofTag 15 with m := 0b00100, w0 := 500, w1 := 20 + 65536 } = .ok (.homeAxesMaximum 0b00100
      500 20) := by
  decide +kernel

theorem test_frameHomeAxesMaximum :
    sent (exec (.homeAxesMaximum 0b00100 500 20) State.reset) = some [0xD5, 0x08, 0x84, 0x04, 0xF4, 0x01, 0x00, 0x00,
      0x14, 0x00, 0xC7] := by
  decide +kernel

/-- V-86-1: 257 wraps to 1 (95_test_vectors.md); slots by 30_encoding.md R86. -/
theorem test_decodeChangeTool :
    decode { Descriptor.ofTag 16 with w0 := 257 } = .ok (.changeTool 1) := by
  decide +kernel

theorem test_frameChangeTool :
    sent (exec (.changeTool 1) State.reset) = some [0xD5, 0x02, 0x86, 0x01, 0xDB] := by
  decide +kernel

/-- V-87-1 (95_test_vectors.md); slots by 30_encoding.md R86. -/
theorem test_decodeWaitForToolReady :
    decode { Descriptor.ofTag 17 with w0 := 0, w1 := 100, w2 := 600 } = .ok (.waitForToolReady 0 100 600) := by
  decide +kernel

theorem test_frameWaitForToolReady :
    sent (exec (.waitForToolReady 0 100 600) State.reset) = some [0xD5, 0x06, 0x87, 0x00, 0x64, 0x00, 0x58, 0x02,
      0x4C] := by
  decide +kernel

/-- V-89-3 (95_test_vectors.md); slots by 30_encoding.md R86. -/
theorem test_decodeEnableDisableAxes :
    decode { Descriptor.ofTag 18 with m := 0b00001, e := true } = .ok (.enableDisableAxes 0b00001 true) := by
  decide +kernel

theorem test_frameEnableDisableAxes :
    sent (exec (.enableDisableAxes 0b00001 true) State.reset) = some [0xD5, 0x02, 0x89, 0x81, 0x4F] := by
  decide +kernel

/-- V-8B-1 (95_test_vectors.md); slots by 30_encoding.md R86. -/
theorem test_decodeQueueExtendedPointLegacy :
    decode { Descriptor.ofTag 19 with w0 := 1000, w1 := -1000, w5 := 1200 } = .ok (.queueExtendedPointLegacy 1000
      (-1000) 0 0 0 1200) := by
  decide +kernel

theorem test_frameQueueExtendedPointLegacy :
    sent (exec (.queueExtendedPointLegacy 1000 (-1000) 0 0 0 1200) State.reset) = some [0xD5, 0x19, 0x8B, 0xE8, 0x03,
      0x00, 0x00, 0x18, 0xFC, 0xFF, 0xFF, 0x00, 0x00, 0x00, 0x00, 0x00, 0x00, 0x00, 0x00, 0x00, 0x00, 0x00, 0x00,
      0xB0, 0x04, 0x00, 0x00, 0xDD] := by
  decide +kernel

/-- V-8C-2 and V-8C-3 (95_test_vectors.md); slots by 30_encoding.md R86. -/
theorem test_decodeSetExtendedPosition :
    decode { Descriptor.ofTag 20 with w0 := 1, w1 := 0xFFFFFFFF, w2 := 0x7FFFFFFF, w3 := 0x80000000, w4 := 0x12345678
      } = .ok (.setExtendedPosition 1 (-1) 0x7FFFFFFF 0x80000000 0x12345678) := by
  decide +kernel

theorem test_frameSetExtendedPosition :
    sent (exec (.setExtendedPosition 1 (-1) 0x7FFFFFFF 0x80000000 0x12345678) State.reset) = some [0xD5, 0x15, 0x8C,
      0x01, 0x00, 0x00, 0x00, 0xFF, 0xFF, 0xFF, 0xFF, 0xFF, 0xFF, 0xFF, 0x7F, 0x00, 0x00, 0x00, 0x80, 0x78, 0x56,
      0x34, 0x12, 0x43] := by
  decide +kernel

/-- V-8D-1 (95_test_vectors.md); slots by 30_encoding.md R86. -/
theorem test_decodeWaitForPlatformReady :
    decode { Descriptor.ofTag 21 with w0 := 0, w1 := 100, w2 := 600 } = .ok (.waitForPlatformReady 0 100 600) := by
  decide +kernel

theorem test_frameWaitForPlatformReady :
    sent (exec (.waitForPlatformReady 0 100 600) State.reset) = some [0xD5, 0x06, 0x8D, 0x00, 0x64, 0x00, 0x58, 0x02,
      0x83] := by
  decide +kernel

/-- V-8E-1, the source's scenario S-1 (95_test_vectors.md); slots by 30_encoding.md R86. -/
theorem test_decodeQueueExtendedPoint :
    decode { Descriptor.ofTag 22 with w0 := -13500, w1 := -6750, w2 := 10000, w5 := 2000000, m := 0b11111 } = .ok
      (.queueExtendedPoint (-13500) (-6750) 10000 0 0 2000000 0b11111) := by
  decide +kernel

theorem test_frameQueueExtendedPoint :
    sent (exec (.queueExtendedPoint (-13500) (-6750) 10000 0 0 2000000 0b11111) State.reset) = some [0xD5, 0x1A, 0x8E,
      0x44, 0xCB, 0xFF, 0xFF, 0xA2, 0xE5, 0xFF, 0xFF, 0x10, 0x27, 0x00, 0x00, 0x00, 0x00, 0x00, 0x00, 0x00, 0x00,
      0x00, 0x00, 0x80, 0x84, 0x1E, 0x00, 0x1F, 0xC5] := by
  decide +kernel

/-- V-92-2, red wrapping as in V-92-3 (95_test_vectors.md); slots by 30_encoding.md R86. -/
theorem test_decodeSetRgbLed :
    decode { Descriptor.ofTag 23 with w0 := 0x100, w1 := 255, w3 := 10 } = .ok (.setRgbLed 0 255 0 10) := by
  decide +kernel

theorem test_frameSetRgbLed :
    sent (exec (.setRgbLed 0 255 0 10) State.reset) = some [0xD5, 0x06, 0x92, 0x00, 0xFF, 0x00, 0x0A, 0x00, 0xD3] := by
  decide +kernel

/-- V-88-1 (95_test_vectors.md); slots by 30_encoding.md R86. -/
theorem test_decodeToolAction :
    decode { Descriptor.ofTag 24 with w1 := 3, vlen := 2, v := slotV [0xE6, 0x00, 0xEE] } = .ok (.toolAction 0 3
      [0xE6, 0x00]) := by
  decide +kernel

theorem test_frameToolAction :
    sent (exec (.toolAction 0 3 [0xE6, 0x00]) State.reset) = some [0xD5, 0x05, 0x88, 0x00, 0x03, 0xE6, 0x00, 0xCE] := by
  decide +kernel

/-! ### Descriptors that are refused (F-4 to F-8) -/

theorem test_badTag :
    decode (.ofTag 25) = .error .badTag ∧ decode { Descriptor.ofTag 31 with vlen := 255 } = .error .badTag := by
  decide +kernel

theorem test_tooLong :
    decode { Descriptor.ofTag 6 with vlen := 254 } = .error .tooLong ∧
      decode { Descriptor.ofTag 9 with vlen := 252 } = .error .tooLong ∧
      decode { Descriptor.ofTag 24 with vlen := 253 } = .error .tooLong := by
  decide +kernel

/-- F-4: the refusal is the step's one event and nothing else of the block changes. -/
theorem test_refusedStep :
    after (step (scheduled (.cmdAccept (.ofTag 25)))) =
      some { State.reset with pulses := [.cmdRefused .badTag], events := [.cmdRefused .badTag] } := by
  decide +kernel

/-- F-3: the length and the head of the longest frame. -/
theorem test_longestFrame :
    (frameOf Config.default (.toolQuery 0 (List.replicate 253 0xAA))).length = 258 ∧
      (frameOf Config.default (.toolQuery 0 (List.replicate 253 0xAA))).take 5 = [0xD5, 0xFF, 0x0A, 0x00, 0xAA] := by
  decide +kernel

/-- F-10: while busy a descriptor is neither taken nor refused. -/
theorem test_busyTakesNothing : after (cmdAccept (.ofTag 25) (sending 1)) = some (sending 1) := by decide +kernel

/-- V-15D-3: Delay with another `DELAY_ID`. -/
theorem test_delayId :
    sent (exec (.delay 1000000) { State.reset with config := { delayId := 0x85 } }) =
      some [0xD5, 0x05, 0x85, 0x40, 0x42, 0x0F, 0x00, 0x9F] := by
  decide +kernel

/-- V-89-1, V-89-2: the enable flag at bit 7, and the mask alone. -/
theorem test_enableBit :
    sent (exec (.enableDisableAxes 0b11111 true) State.reset) = some [0xD5, 0x02, 0x89, 0x9F, 0xCD] ∧
      sent (exec (.enableDisableAxes 0b11111 false) State.reset) = some [0xD5, 0x02, 0x89, 0x1F, 0x41] := by
  decide +kernel

/-- S-3: axis names in any order and case. -/
theorem test_axisNames :
    axisSetOfNames ['x', 'Y'] = some 0b00011 ∧ axisSetOfNames ['Y', 'X'] = some 0b00011 ∧
      axisSetOfNames ['y', 'x'] = some 0b00011 ∧ axisSetOfNames ['c'] = none := by
  decide +kernel

/-! ### Words of opcode_table.json, as that file prints them -/

theorem test_tableWordsLow :
    [0xD50100, 0xD50101, 0xD50102, 0xD50103, 0xD50107, 0xD50108, 0xD5020A, 0xD5010B, 0xD5040C, 0xD5040D, 0xD50111,
      0xD50115, 0xD50515, 0xD50117].map (decodeTableWord 24) =
    [some .getVersion, some .init, some .availableBufferSize, some .clearBuffer, some .abort, some .pause,
      some (.toolQuery 0 []), some .isFinished, some (.eepromRead 0 0), some (.eepromWrite 0 0 []), some .reset,
      some .getCurrentPosition, some (.delay 0), some .getMotherboardStatus] := by
  decide +kernel

theorem test_tableWordsHigh :
    [0xD50883, 0xD50884, 0xD50286, 0xD50687, 0xD50289, 0xD5198B, 0xD5158C, 0xD5068D, 0xD51A8E, 0xD50692,
      0xD50388].map (decodeTableWord 24) =
    [some (.homeAxesMinimum 0 0 0), some (.homeAxesMaximum 0 0 0), some (.changeTool 0),
      some (.waitForToolReady 0 0 0), some (.enableDisableAxes 0 false),
      some (.queueExtendedPointLegacy 0 0 0 0 0 0), some (.setExtendedPosition 0 0 0 0 0),
      some (.waitForPlatformReady 0 0 0), some (.queueExtendedPoint 0 0 0 0 0 0 0), some (.setRgbLed 0 0 0 0),
      some (.toolAction 0 0 [])] := by
  decide +kernel

/-- The very next step runs the word's command. -/
theorem test_withFetchWord :
    sent (step (State.reset.withFetchWord 24 0xD5020A)) = some [0xD5, 0x02, 0x0A, 0x00, crc8 [0x0A, 0x00]] ∧
      sent (step ((sending 3).withFetchWord 24 0xD50107)) = some [0xD5, 0x01, 0x07, 0x83] := by
  decide +kernel

/-! ### The checksum (K-1 to K-18) -/

/-- K-9: the check value of the algorithm's family; K-12, K-4, K-5, K-6, K-7. -/
theorem test_crc8 :
    crc8 [0x31, 0x32, 0x33, 0x34, 0x35, 0x36, 0x37, 0x38, 0x39] = 0xA1 ∧ crc8 [0x00, 0x64, 0x00] = 0x61 ∧
      [[0x01], [0x80], [0xFF], [0xD5]].map crc8 = [0x5E, 0x8C, 0x35, 0x68] := by
  decide +kernel

/-- K-13: the accumulator after each bit of `92`. -/
theorem test_crcBits :
    [false, true, false, false, true, false, false, true].scanl crcBit 0x00 =
      [0x00, 0x00, 0x8C, 0x46, 0x23, 0x11, 0x84, 0x42, 0xAD] := by
  decide +kernel

/-! ### The transmitter -/

theorem test_txEmitFirst :
    after (step { sending 0 with schedule := [.txEmit] }) = some { sending 1 with outbound := [0xD5] } := by
  decide +kernel

theorem test_txEmitLast :
    after (step { sending 3 with schedule := [.txEmit] }) =
      some { sending 0 with txBusy := false, outbound := [0x00] } := by
  decide +kernel

/-! ### The deframer (X-1 to X-14) -/

theorem test_rxComplete :
    received [0xD5, 0x03, 0x00, 0x64, 0x00, 0x61] =
      some ([.complete (.acknowledged [0x00, 0x64, 0x00])], .awaitSync) := by
  decide +kernel

theorem test_rxDeviceRejected :
    received [0xD5, 0x01, 0x82, 0x30] = some ([.complete (.deviceRejected 0x82 [0x82])], .awaitSync) := by
  decide +kernel

theorem test_rxBadChecksum :
    received [0xD5, 0x03, 0x00, 0x64, 0x00, 0x60] = some ([.framingError .badChecksum], .awaitSync) := by
  decide +kernel

/-- X-6: after a zero length the deframer searches again from the next byte. -/
theorem test_rxBadLength :
    received [0xD5, 0x00, 0xD5, 0x01, 0x00, 0x00] =
      some ([.framingError .badLength, .complete (.acknowledged [0x00])], .awaitSync) := by
  decide +kernel

/-- X-8: the sync value as data. -/
theorem test_rxSyncAsData :
    received [0xD5, 0x03, 0x00, 0xD5, 0xD5, 0xCF] =
      some ([.complete (.acknowledged [0x00, 0xD5, 0xD5])], .awaitSync) := by
  decide +kernel

/-- S-6: a frame, then garbage. -/
theorem test_rxGarbage :
    received [0xD5, 0x01, 0x00, 0x00, 0x13, 0x37, 0xFF] =
      some ([.complete (.acknowledged [0x00]), .rxDiscard 0x13, .rxDiscard 0x37, .rxDiscard 0xFF], .awaitSync) := by
  decide +kernel

/-- P5: a false sync byte swallows a real frame. -/
theorem test_rxFalseSync :
    received [0xD5, 0x02, 0xD5, 0x01, 0x00, 0x00, 0x55, 0xD5, 0x01, 0x00, 0x00] =
      some ([.framingError .badChecksum, .rxDiscard 0x00, .rxDiscard 0x55, .complete (.acknowledged [0x00])],
        .awaitSync) := by
  decide +kernel

/-- X-2 after its fifth byte: the registers and the body buffer. -/
theorem test_rxRegisters :
    after (feed [0xD5, 0x03, 0x00, 0x64, 0x00] State.reset) =
      some { State.reset with
        rxState := .awaitChecksum, rxLen := 3, rxCrc := 0x61, rxBuf := [(0, 0x00), (1, 0x64), (2, 0x00)] } := by
  decide +kernel

/-- R32: the body is readable from its `Complete` on, byte for byte and no further, also while the next frame's header
is taken; its first body byte closes the window. -/
theorem test_rxWindow :
    (after (feed [0xD5, 0x02, 0x00, 0x64, 0x04, 0xD5, 0x03] State.reset)).map
        (fun t => [t.rxRdData 0, t.rxRdData 1, t.rxRdData 2]) = some [some 0x00, some 0x64, none] ∧
      (after (feed [0xD5, 0x02, 0x00, 0x64, 0x04, 0xD5, 0x03, 0x07] State.reset)).map
        (fun t => [t.rxRdData 0, t.rxRdData 1]) = some [none, none] := by
  decide +kernel

/-- X-11 and X-12: a timeout inside a frame, and a second one. -/
theorem test_rxTimeout :
    (after (andThen (feed [0xD5, 0x03, 0x00] State.reset) fun t => .next (rxTimeout (rxTimeout t)))).map
        (fun t => (t.events, t.rxState, t.rxRemaining)) =
      some ([.framingError .truncated], .awaitSync, 0) := by
  decide +kernel

/-- A check byte that arrives for a body nothing wrote: the model's own fault, in a state no run reaches. -/
theorem test_rxBodyUnwritten :
    after (rxByte 0x00 { State.reset with rxState := .awaitChecksum, rxLen := 1 }) = none := by
  decide +kernel

/-! ### Reset (Z-1) and the clock edge -/

theorem test_reset :
    after (step { sending 2 with schedule := [.reset], outbound := [0xD5, 0x01] }) =
      some { State.reset with outbound := [0xD5, 0x01] } := by
  decide +kernel

/-- R44: on one edge the byte's event comes before the timeout's. -/
theorem test_clockEdge :
    (after (clockEdge ⟨false, false, .ofTag 0, false, true, 0x60, true⟩ (receiving 0 .awaitChecksum))).map
        State.eventOutputs = some ⟨none, none, none, some 0⟩ := by
  decide +kernel

/-! ### Witnesses: for every statement with hypotheses, values that meet them -/

theorem witness_crcBit : ((0x01#8).getLsbD 0 ^^ false) = true ∧ ((0x01#8).getLsbD 0 ^^ true) = false := by decide

theorem witness_crcIsLinear :
    [0x01#8].length = [0x02#8].length ∧ ([] : List Byte).length = ([] : List Byte).length := by
  decide

theorem witness_singleBitFlip : 0 < [0x92#8].length ∧ 0 < 8 ∧ 7 < 8 := by decide

theorem witness_fieldSerializers : 0 < 1 ∧ 3 < 4 := by decide

theorem witness_axisByte : 0 < 5 ∧ 4 < 5 ∧ 5 ≤ 5 ∧ 5 ≤ 7 := by decide

theorem witness_axisNames :
    ['x', 'Y'].Perm ['Y', 'x'] ∧ 'x' ∈ ['x', 'Y'] ∧ axisSetOfNames ['x', 'Y'] = some 0b00011 := by
  decide

/-- The shortest and the longest payload. -/
theorem witness_frameParts :
    ([] : List Byte).length ≤ 254 ∧ (List.replicate 254 0xAA#8).length ≤ 254 := by
  decide +kernel

theorem witness_tableRows :
    TableRow.fixed 0 0xD50100 ∈ opcodeTable ∧ (TableRow.fixed 0 0xD50100).covers 0xD50100 = true ∧
      TableRow.withString 24 0xD50088 3 ∈ opcodeTable ∧
      (TableRow.withString 24 0xD50088 3).covers 0xD5FF88 = true := by
  decide +kernel

/-- Well-formed commands, with and without a byte string, at the caps: for every statement about `i.wf = true`. -/
theorem witness_wellFormed :
    Instr.getVersion.wf = true ∧ (Instr.toolQuery 0xFF (List.replicate 253 0xAA)).wf = true ∧
      (Instr.eepromWrite 0xFFFF 0xFF (List.replicate 251 0xAA)).wf = true ∧
      (Instr.toolAction 0 0xFF (List.replicate 252 0xAA)).wf = true ∧ (Instr.toolAction 0 0 []).wf = true := by
  decide +kernel

theorem witness_decodeOk : decode (.ofTag 24) = .ok (.toolAction 0 0 []) := by decide +kernel

/-- Different descriptors that agree on the slots bound to EepromRead, and to a byte string. -/
theorem witness_boundSlots :
    Claims.SameBoundSlots { Descriptor.ofTag 8 with w0 := 0x10102, vlen := 9 }
        { Descriptor.ofTag 8 with w0 := 0x102 } ∧
      Claims.SameBoundSlots { Descriptor.ofTag 24 with vlen := 1, v := slotV [0x07] }
        { Descriptor.ofTag 24 with vlen := 1, v := slotV [0x07, 0x08] } ∧
      Claims.SameBoundSlots (.ofTag 31) { Descriptor.ofTag 31 with w5 := 1 } := by
  refine ⟨⟨rfl, rfl⟩, ⟨rfl, rfl, rfl, ?_⟩, trivial⟩
  decide +kernel

theorem witness_sameFrames :
    frameOf Config.default (.delay 0) = frameOf Config.default (.delay 0) ∧ (Instr.delay 0).wf = true := by
  decide +kernel

/-- An idle transmitter, a busy one, and byte strings on both sides of each cap. -/
theorem witness_acceptance :
    State.reset.txBusy = false ∧ (sending 0).txBusy = true ∧
      (List.replicate 253 0xAA#8).length ≤ 253 ∧ 253 < (List.replicate 254 0xAA#8).length ∧
      (List.replicate 251 0xAA#8).length ≤ 251 ∧ 251 < (List.replicate 252 0xAA#8).length ∧
      (List.replicate 252 0xAA#8).length ≤ 252 ∧ 252 < (List.replicate 253 0xAA#8).length := by
  decide +kernel

/-- Tags of every clause, and the lengths where the clauses meet. -/
theorem witness_tagsAndLengths :
    (Descriptor.ofTag 0).tag = 0 ∧ (Descriptor.ofTag 24).tag = 24 ∧ ¬ 25 ≤ (Descriptor.ofTag 24).tag.toNat ∧
      25 ≤ (Descriptor.ofTag 25).tag.toNat ∧ 25 ≤ (Descriptor.ofTag 31).tag.toNat ∧
      (253#8).toNat ≤ 253 ∧ 253 < (254#8).toNat ∧ (251#8).toNat ≤ 251 ∧ 251 < (252#8).toNat ∧
      (252#8).toNat ≤ 252 ∧ 252 < (253#8).toNat := by
  decide +kernel

/-- The motion commands' hypothesis on their coordinate bytes. -/
theorem witness_motion :
    [0x01, 0x00, 0x00, 0x00] ++ List.replicate 16 0xFF#8 = Claims.wordBytes 1 ++ Claims.wordBytes (-1) ++
      Claims.wordBytes (-1) ++ Claims.wordBytes (-1) ++ Claims.wordBytes (-1) := by
  decide +kernel

/-- A command that goes on in each of the three cases of the frame statement: taken, refused, busy. -/
theorem witness_commandOutcomes :
    (after (exec .abort State.reset)).isSome = true ∧
      (Instr.toolAction 0 0 (List.replicate 253 0)).wf = false ∧
      (after (exec (.toolAction 0 0 (List.replicate 253 0)) State.reset)).isSome = true ∧
      after (exec .abort (sending 0)) = some (sending 0) := by
  decide +kernel

theorem witness_stepRunsTheCommand :
    (scheduled (.cmdAccept (.ofTag 4))).schedule = .cmdAccept (.ofTag 4) :: [] ∧
      (scheduled (.cmdAccept (.ofTag 4))).txBusy = false ∧ decode (.ofTag 4) = .ok .abort := by
  decide +kernel

/-- A byte in the middle of a frame, the last byte, and an idle transmitter. -/
theorem witness_txEmit :
    ((sending 0).txBusy = true ∧ (sending 0).txBuf.read 0 = some 0xD5 ∧
        (sending 0).txIdx + 1 ≠ (sending 0).txLen) ∧
      ((sending 3).txBuf.read 3 = some 0x00 ∧ (sending 3).txIdx + 1 = (sending 3).txLen) ∧
      (scheduled .txEmit).schedule = .txEmit :: [] ∧ (scheduled .txEmit).txBusy = false := by
  decide +kernel

/-- The transmit law's run for GetVersion; `k` at both ends of its range. -/
theorem witness_transmitLaw :
    decode (.ofTag 0) = .ok .getVersion ∧ (layoutOf Config.default .getVersion).payload.length + 4 = 4 ∧
      { State.reset with schedule := .cmdAccept (.ofTag 0) :: List.replicate 4 .txEmit }.schedule =
        .cmdAccept (.ofTag 0) :: (List.replicate 4 .txEmit ++ []) ∧ 0 ≤ 4 ∧ 4 ≤ 4 := by
  decide +kernel

/-- Every kind of step goes on from a state of a run: for the statements about `step s = .next t`. -/
theorem witness_stepsGoOn :
    (after (step State.reset)).isSome = true ∧ (after (step (scheduled (.cmdAccept (.ofTag 4))))).isSome = true ∧
      (after (step { sending 3 with schedule := [.txEmit] })).isSome = true ∧
      (after (step { receiving 0 .awaitChecksum with schedule := [.rxByte], inbound := [0x60] })).isSome = true ∧
      (after (step { receiving 1 .awaitPayload with schedule := [.rxTimeout] })).isSome = true ∧
      (after (step { sending 2 with schedule := [.reset] })).isSome = true := by
  decide +kernel

/-- A state in which a frame is under way on the outbound stream. -/
theorem witness_sendsWholeFrames : Claims.SendsWholeFrames [0x55] { sending 2 with outbound := [0x55, 0xD5, 0x01] } :=
  ⟨[], by decide, fun h => by revert h; decide, fun _ =>
    ⟨{ id := 0x00, payload := [] }, by decide, by decide +kernel, by decide, by decide +kernel, by decide +kernel⟩⟩

/-- The sync byte, the least and the greatest length, a body byte that is not the last and one that is. -/
theorem witness_reception :
    (taking 0xD5 State.reset).schedule = .rxByte :: [] ∧ (taking 0xD5 State.reset).inbound = 0xD5 :: [] ∧
      (taking 0xD5 State.reset).rxState = .awaitSync ∧
      (taking 0x01 (receiving 0 .awaitLength)).rxState = .awaitLength ∧ 1 ≤ (0x01#8).toNat ∧ 1 ≤ (0xFF#8).toNat ∧
      (taking 0x07 (receiving 2 .awaitPayload)).rxState = .awaitPayload ∧
      1 ≤ (taking 0x07 (receiving 2 .awaitPayload)).rxRemaining ∧
      (taking 0x07 (receiving 2 .awaitPayload)).rxRemaining ≤ (taking 0x07 (receiving 2 .awaitPayload)).rxLen ∧
      (taking 0x07 (receiving 1 .awaitPayload)).rxRemaining = 1 ∧
      { receiving 1 .awaitPayload with rxLen := 255 }.rxLen ≤ 255 := by
  decide +kernel

/-- A check byte due, with a body held, and check bytes that match and do not; the sync value as one of each. -/
theorem witness_checkByte :
    (taking 0x04 (receiving 0 .awaitChecksum)).schedule = .rxByte :: [] ∧
      (taking 0x04 (receiving 0 .awaitChecksum)).inbound = 0x04 :: [] ∧
      (taking 0x04 (receiving 0 .awaitChecksum)).rxState = .awaitChecksum ∧
      1 ≤ (taking 0x04 (receiving 0 .awaitChecksum)).rxLen ∧
      (receiving 0 .awaitChecksum).rxBuf.readBytes 0 (receiving 0 .awaitChecksum).rxLen = some [0x00, 0x64] ∧
      0x04 = (receiving 0 .awaitChecksum).rxCrc ∧ 0x05 ≠ (receiving 0 .awaitChecksum).rxCrc ∧
      (receiving 0 .awaitChecksum).rxCrc ≠ 0xD5 ∧ { receiving 0 .awaitChecksum with rxCrc := 0xD5 }.rxCrc = 0xD5 := by
  decide +kernel

theorem witness_classify : (0x82#8) ≠ 0x00 ∧ [0x00#8] ≠ [] := by decide

/-- A byte to discard, and a zero length, each at the front of the inbound stream with its step scheduled. -/
theorem witness_discard :
    (taking 0x13 State.reset).schedule = .rxByte :: [] ∧ (taking 0x13 State.reset).inbound = 0x13 :: [] ∧
      (taking 0x13 State.reset).rxState = .awaitSync ∧ (0x13#8) ≠ 0xD5 ∧
      (taking 0x00 (receiving 0 .awaitLength)).schedule = .rxByte :: [] ∧
      (taking 0x00 (receiving 0 .awaitLength)).inbound = 0x00 :: [] ∧
      (taking 0x00 (receiving 0 .awaitLength)).rxState = .awaitLength := by
  decide +kernel

/-- Three bytes of a frame scheduled and at the front of the inbound stream, with more of both behind. -/
theorem witness_scheduledBytes :
    { State.reset with schedule := [.rxByte, .rxByte, .rxByte, .txEmit], inbound := [0xD5, 0x01, 0x00, 0x07] }.schedule =
        List.replicate [0xD5#8, 0x01, 0x00].length .rxByte ++ [.txEmit] ∧
      [0xD5#8, 0x01, 0x00, 0x07] = [0xD5, 0x01, 0x00] ++ [0x07] ∧
      (after (feed [0xD5, 0x01, 0x00] State.reset)).isSome = true ∧
      (after (steps 3 { State.reset with
        schedule := [.rxByte, .rxByte, .rxByte, .txEmit], inbound := [0xD5, 0x01, 0x00, 0x07] })).isSome = true := by
  decide +kernel

/-- The three clauses of the host's window: a step that completes a body, one that stores a body byte, and one that
does neither. -/
theorem witness_window :
    (after (step (taking 0x04 (receiving 0 .awaitChecksum)))).map State.pulses =
        some [.complete (.acknowledged [0x00, 0x64])] ∧
      ((taking 0x07 (receiving 1 .awaitPayload)).schedule.head? = some .rxByte ∧
        (taking 0x07 (receiving 1 .awaitPayload)).inbound ≠ [] ∧
        (taking 0x07 (receiving 1 .awaitPayload)).rxState = .awaitPayload ∧
        (after (step (taking 0x07 (receiving 1 .awaitPayload)))).isSome = true) ∧
      ((taking 0xD5 State.reset).rxState ≠ .awaitPayload ∧ (taking 0xD5 State.reset).schedule.head? ≠ some .reset ∧
        (after (step (taking 0xD5 State.reset))).map State.pulses = some []) := by
  decide +kernel

theorem witness_timeout :
    { receiving 1 .awaitPayload with schedule := [.rxTimeout] }.rxState ≠ .awaitSync ∧
      { receiving 1 .awaitPayload with schedule := [.rxTimeout] }.schedule = .rxTimeout :: [] ∧
      (scheduled .rxTimeout).rxState = .awaitSync := by
  decide +kernel

/-- Bodies of the least and the greatest length, a wrong check byte, and garbage without a sync byte. -/
theorem witness_frames :
    State.reset.rxState = .awaitSync ∧ 1 ≤ [0x00#8].length ∧ (List.replicate 255 0xD5#8).length ≤ 255 ∧
      (0x01 : Byte) ≠ crc8 [0x00] ∧ (0xD5 : Byte) ∉ [0x13#8, 0x37, 0xFF] ∧ Config.default.delayId ≠ 0x00 := by
  decide +kernel

theorem witness_reset :
    { sending 2 with schedule := [.reset] }.schedule = .reset :: [] ∧
      { sending 2 with schedule := [.reset] }.schedule.head? = some .reset ∧
      (scheduled .txEmit).schedule.head? ≠ some .reset := by
  decide +kernel

/-- A state that meets the invariant with a frame half sent and a response whose check byte is due. -/
theorem witness_inv :
    { sending 2 with
      schedule := [.txEmit], rxState := .awaitChecksum, rxLen := 2, rxCrc := 0x04
      rxBuf := [(0, 0x00), (1, 0x64)] }.Inv where
  buffers := ⟨by decide +kernel, by decide +kernel⟩
  tx := ⟨by decide, fun _ => ⟨by decide, { id := 0x00, payload := [] }, by decide, rfl, by decide +kernel⟩,
    fun h => by revert h; decide⟩
  rx := ⟨by decide, fun h => by revert h; decide, fun h => RxState.noConfusion h,
    fun _ => ⟨rfl, by decide, [0x00, 0x64], by decide +kernel, by decide +kernel⟩, by decide, [], rfl⟩

/-- A TX step and an RX step that go on together, each with an event. -/
theorem witness_commute :
    (after (andThen (perform (.cmdAccept (.ofTag 25)) (receiving 1 .awaitPayload)) (perform .rxTimeout))).isSome =
        true ∧ (Action.cmdAccept (.ofTag 25)).isCmdAccept = true := by
  decide +kernel

/-- The deframer's statement: two states with the same RX state that differ elsewhere, and a byte that is taken. -/
theorem witness_sameRx :
    State.SameRx (receiving 0 .awaitChecksum)
        { receiving 0 .awaitChecksum with txBusy := true, txIdx := 3, outbound := [0x07] } ∧
      (after (rxByte 0x60 (receiving 0 .awaitChecksum))).isSome = true :=
  ⟨⟨rfl, rfl, rfl, rfl, rfl, rfl⟩, by decide +kernel⟩

/-- The clauses of the clock edge, and an edge that asks for three steps. -/
theorem witness_clockEdge :
    (PortInputs.mk true true (.ofTag 0) true true 0x00 true).rst = true ∧
      Claims.edgeActions ⟨false, true, .ofTag 0, true, true, 0x00, true⟩ (sending 1) =
        [.txEmit, .rxByte, .rxTimeout] ∧
      Claims.edgeActions ⟨false, true, .ofTag 0, true, false, 0x00, false⟩ State.reset = [.cmdAccept (.ofTag 0)] ∧
      (PortInputs.mk false false (.ofTag 0) false true 0xD5 true).rxTimeout = true ∧
      (PortInputs.mk false true (.ofTag 25) true false 0x00 false).cmdValid = true ∧
      State.reset.txBusy = false ∧ State.reset.rxState = .awaitSync := by
  decide +kernel

/-- Pulses of every clause of the event codes. -/
theorem witness_eventCodes :
    State.reset.pulses = [] ∧ (after (cmdAccept (.ofTag 25) State.reset)).map State.pulses =
        some [.cmdRefused .badTag] ∧
      classify [0x82] = some (.deviceRejected 0x82 [0x82]) ∧ classify [0x00] = some (.acknowledged [0x00]) := by
  decide +kernel

theorem witness_statusOutputs : (sending 3).txBusy = true ∧ (sending 3).txIdx + 1 = (sending 3).txLen := by decide

end Sys2Proof.Tests
end

