-- ==== Sys2Proof/Proofs/FieldSerializers.lean ====
section
/-! The field serializers on every integer (00_scope.md R12): the bytes of the reduced value, and the reduction. -/

namespace Sys2Proof.Machine

/-- Below the width, entry `i` is the slice of eight bits from `8 * i` up. -/
theorem le_getElem?_of_lt {n i : Nat} (v : Int) (hi : i < n) :
    (le n v)[i]? = some ((BitVec.ofInt (8 * n) v).extractLsb' (8 * i) 8) := by
  simp [le, hi]

/-- The slice of eight bits from `8 * i` up, as a number: division and remainder of the reduced value. -/
theorem toNat_extractLsb'_ofInt (n i : Nat) (v : Int) :
    ((BitVec.ofInt (8 * n) v).extractLsb' (8 * i) 8).toNat = (v % 2 ^ (8 * n)).toNat / 2 ^ (8 * i) % 256 := by
  rw [BitVec.extractLsb'_toNat, Nat.shiftRight_eq_div_pow, BitVec.toNat_ofInt]
  norm_num

/-- `le` sees its operand through the bits of the field's width only. -/
theorem le_congr {n : Nat} {v w : Int} (h : BitVec.ofInt (8 * n) v = BitVec.ofInt (8 * n) w) : le n v = le n w := by
  simp only [le, h]

/-- Reducing the operand to the field's width first changes no bit of the field. -/
theorem ofInt_emod_two_pow (w : Nat) (v : Int) : BitVec.ofInt w (v % 2 ^ w) = BitVec.ofInt w v := by
  apply BitVec.eq_of_toNat_eq
  simp [BitVec.toNat_ofInt]

/-- Settles O7: a byte is a slice of the field's bits, which are those of the reduced integer. -/
theorem fieldSerializersReduceModulo : Obligations.FieldSerializersReduceModulo := by
  refine ⟨le_length, fun n v i hi => ?byteOfLe, fun _ _ => rfl, fun n v => ?reduceFirst, fun _ => ?widths⟩
  case byteOfLe => exact ⟨_, le_getElem?_of_lt v hi, toNat_extractLsb'_ofInt n i v⟩
  case reduceFirst => exact le_congr (ofInt_emod_two_pow (8 * n) v)
  case widths => exact ⟨rfl, rfl, rfl, rfl, rfl⟩

end Sys2Proof.Machine
end

