-- ==== Sys2Proof/Proofs/AxisMask.lean ====
section
/-! The byte of an axis mask (30_encoding.md R78): zero extension reads the same bit at every index. -/

namespace Sys2Proof.Machine

/-- The five bits of a mask fit into the byte, and from bit 5 on both the mask and the byte read as zero. -/
@[simp] theorem getLsbD_axisByte (m : AxisSet) (i : Nat) : (axisByte m).getLsbD i = m.getLsbD i := by
  rw [axisByte, ← BitVec.setWidth'_eq (by decide : 5 ≤ 8), BitVec.getLsbD_setWidth']

/-- Settles O8: the byte has the bits of the mask, and a five-bit mask has none from bit 5 on. -/
theorem axisByteIsTheMask : Obligations.AxisByteIsTheMask := by
  refine ⟨fun m i _ => getLsbD_axisByte m i, fun m i hi => ?zeroAbove, by decide⟩
  case zeroAbove => rw [getLsbD_axisByte, BitVec.getLsbD_of_ge m i hi]

end Sys2Proof.Machine
end

