-- ==== Sys2Proof/Proofs/Checksum.lean ====
section
/-! The checksum generator (40_checksum.md R100 to R102): one bit, one byte in its three forms, and the fold over a
sequence. The key fact is that one round moves the exclusive-or of accumulator and data byte by itself, so that a byte
step sees the two only through their exclusive-or. -/

namespace Sys2Proof.Machine

/-! ### One bit -/

/-- The low bit differs from the data bit: shift, then mix in the polynomial (R102). -/
theorem crcBit_of_xor {c : Byte} {b : Bool} (h : (c.getLsbD 0 ^^ b) = true) :
    crcBit c b = (c >>> 1) ^^^ crcPolyR := if_pos h

/-- The low bit equals the data bit: shift alone (R102). -/
theorem crcBit_of_not_xor {c : Byte} {b : Bool} (h : (c.getLsbD 0 ^^ b) = false) : crcBit c b = c >>> 1 :=
  if_neg (h ▸ Bool.false_ne_true)

/-- Settles O1: the two branches of `crc_bit`, and its corner cases by evaluation. -/
theorem crcBitShiftsAndMixes : Obligations.CrcBitShiftsAndMixes :=
  ⟨fun _ _ => crcBit_of_xor, fun _ _ => crcBit_of_not_xor, by decide⟩

/-- One round on the exclusive-or of accumulator and data byte needs no data bit of its own. -/
theorem crcBit_xor_ushiftRight (c d : Byte) : crcBit c (d.getLsbD 0) ^^^ (d >>> 1) = crcBit (c ^^^ d) false := by
  have hbit : ((c ^^^ d).getLsbD 0 ^^ false) = (c.getLsbD 0 ^^ d.getLsbD 0) := by simp
  cases h : c.getLsbD 0 ^^ d.getLsbD 0 with
  | false => rw [crcBit_of_not_xor h, crcBit_of_not_xor (hbit.trans h), BitVec.ushiftRight_xor_distrib]
  | true =>
    rw [crcBit_of_xor h, crcBit_of_xor (hbit.trans h), BitVec.ushiftRight_xor_distrib, BitVec.xor_assoc,
      BitVec.xor_comm crcPolyR, BitVec.xor_assoc]

/-! ### One byte -/

@[simp] theorem crcByteShifting_zero (c d : Byte) : crcByteShifting 0 c d = c := rfl

/-- A round of the shifting form is `crc_bit` on the low bit of the data byte (R101). -/
theorem crcByteShifting_succ (n : Nat) (c d : Byte) :
    crcByteShifting (n + 1) c d = crcByteShifting n (crcBit c (d.getLsbD 0)) (d >>> 1) := by
  have hmix : (c ^^^ d) &&& 0x01 = 1 ↔ (c.getLsbD 0 ^^ d.getLsbD 0) = true := by
    change (c ^^^ d) &&& 1#8 = 1#8 ↔ _
    rw [BitVec.and_one_eq_setWidth_ofBool_getLsbD, BitVec.getLsbD_xor]
    cases c.getLsbD 0 ^^ d.getLsbD 0 <;> decide
  simp only [crcByteShifting, crcBit, hmix]

/-- `n` rounds over a shifting copy fold the low `n` bits of the data byte, least significant first. -/
theorem crcByteShifting_eq_foldl (n : Nat) (c d : Byte) :
    crcByteShifting n c d = (List.range n).foldl (fun acc i => crcBit acc (d.getLsbD i)) c := by
  induction n generalizing c d with
  | zero => rfl
  | succ n ih =>
    rw [crcByteShifting_succ, ih, List.range_succ_eq_map, List.foldl_cons, List.foldl_map]
    simp only [BitVec.getLsbD_ushiftRight, Nat.succ_eq_one_add]

theorem crcByteShifting_eight (c d : Byte) : crcByteShifting 8 c d = crcByte c d :=
  crcByteShifting_eq_foldl 8 c d

/-- After `n` rounds the accumulator and what is left of the data byte are, taken together, the rounds on their
exclusive-or with no data. -/
theorem crcByteShifting_xor_ushiftRight (n : Nat) (c d : Byte) :
    crcByteShifting n c d ^^^ (d >>> n) = crcByteShifting n (c ^^^ d) 0 := by
  induction n generalizing c d with
  | zero => simp
  | succ n ih =>
    rw [crcByteShifting_succ, crcByteShifting_succ, Nat.add_comm n 1, BitVec.shiftRight_add, ih,
      crcBit_xor_ushiftRight]
    simp

/-- The byte step sees accumulator and data byte only through their exclusive-or (R101). -/
theorem crcByte_eq_crcByte_xor_zero (c d : Byte) : crcByte c d = crcByte (c ^^^ d) 0 := by
  have h := crcByteShifting_xor_ushiftRight 8 c d
  rwa [BitVec.ushiftRight_eq_zero le_rfl, BitVec.xor_zero, crcByteShifting_eight, crcByteShifting_eight] at h

theorem crcByte_zero_zero : crcByte 0x00 0x00 = 0x00 := by decide

@[simp] theorem crcByte_self (c : Byte) : crcByte c c = 0x00 := by
  rw [crcByte_eq_crcByte_xor_zero, BitVec.xor_self]
  exact crcByte_zero_zero

/-- The printed table is the byte step from accumulator zero (R105). -/
theorem crcTable_eq_map : crcTable = (List.range 256).map fun n => crcByte (BitVec.ofNat 8 n) 0 := by
  decide +kernel

theorem crcTable_length : crcTable.length = 256 := by simp [crcTable_eq_map]

theorem crcTable_getElem? (x : Byte) : crcTable[x.toNat]? = some (crcByte x 0) := by
  simp [crcTable_eq_map, x.isLt]

/-- Settles O2: both other forms are the fold, and the entry of the table is looked up at `c ^ d`. -/
theorem crcByteFormsAgree : Obligations.CrcByteFormsAgree := by
  refine ⟨fun _ _ => rfl, crcByteShifting_eight, crcTable_length, fun c d => ?table, crcByte_self,
    crcByte_zero_zero, ?trace⟩
  case table => rw [crcTable_getElem?, ← crcByte_eq_crcByte_xor_zero]
  case trace => decide

/-! ### A sequence -/

/-- A zero byte at the front leaves the accumulator at zero (R100). -/
theorem crc8_zero_cons (s : List Byte) : crc8 (0x00 :: s) = crc8 s :=
  congrArg (s.foldl crcByte) crcByte_zero_zero

theorem crc8_replicate_zero_append (n : Nat) (s : List Byte) : crc8 (List.replicate n 0x00 ++ s) = crc8 s := by
  induction n with
  | zero => rfl
  | succ n ih => rw [List.replicate_succ, List.cons_append, crc8_zero_cons, ih]

/-- Settles O3: the fold grows at its end, and zeros at the front are not seen, by induction on their number. -/
theorem crcFoldsTheSequence : Obligations.CrcFoldsTheSequence := by
  refine ⟨crc8_nil, crc8_append_byte, crc8_replicate_zero_append, fun n => ?zeros, by decide +kernel⟩
  case zeros => simpa using crc8_replicate_zero_append n []

end Sys2Proof.Machine
end

