-- ==== Sys2Proof/Proofs/DecodedCommands.lean ====
section
/-! What the decoder gives fits into a frame: decoded commands are well formed (30_encoding.md R88), and the payload of
a well-formed command is within the frame's limit (41_frame_serializer.md R122). -/

namespace Sys2Proof

/-- A byte string that passes its cap is within it (R88). -/
theorem Descriptor.boundedBytes_length {d : Descriptor} {cap : Nat} {v : List Byte}
    (h : d.boundedBytes cap = .ok v) : v.length ≤ cap := by
  unfold Descriptor.boundedBytes at h
  split at h
  · rename_i hlen
    cases h
    exact (List.length_take_le _ _).trans hlen
  · cases h

/-- A command with a byte string is decoded from one that passes its cap. -/
theorem Descriptor.boundedBytes_map_eq_ok {d : Descriptor} {cap : Nat} {f : List Byte → Instr} {i : Instr}
    (h : (d.boundedBytes cap).map f = .ok i) : ∃ v : List Byte, v.length ≤ cap ∧ f v = i := by
  cases hv : d.boundedBytes cap with
  | error reason => rw [hv] at h; cases h
  | ok v => rw [hv] at h; exact ⟨v, Descriptor.boundedBytes_length hv, Except.ok.inj h⟩

/-- The decoder gives only well-formed commands: the three with a byte string have passed its cap, the others have none
to check. -/
theorem wf_of_decode_eq_ok {d : Descriptor} {i : Instr} (h : decode d = .ok i) : i.wf = true := by
  unfold decode at h
  split at h
  case h_7 | h_10 | h_25 =>
    obtain ⟨v, hv, rfl⟩ := Descriptor.boundedBytes_map_eq_ok h
    exact decide_eq_true hv
  case h_26 => cases h
  all_goals cases h; rfl

end Sys2Proof

namespace Sys2Proof.Laws.PayloadFits

/-- The lemmas of the single commands, put together. -/
theorem statement : ∀ i : Instr, Statement i
  | .getVersion => getVersion
  | .init => init
  | .availableBufferSize => availableBufferSize
  | .clearBuffer => clearBuffer
  | .abort => abort
  | .pause => pause
  | .toolQuery toolIndex subQuery => toolQuery toolIndex subQuery
  | .isFinished => isFinished
  | .eepromRead offset nBytes => eepromRead offset nBytes
  | .eepromWrite offset nBytes data => eepromWrite offset nBytes data
  | .reset => reset
  | .getCurrentPosition => getCurrentPosition
  | .delay durationUs => delay durationUs
  | .getMotherboardStatus => getMotherboardStatus
  | .homeAxesMinimum axes feedrate timeoutSec => homeAxesMinimum axes feedrate timeoutSec
  | .homeAxesMaximum axes feedrate timeoutSec => homeAxesMaximum axes feedrate timeoutSec
  | .changeTool toolId => changeTool toolId
  | .waitForToolReady toolId queryDelayMs timeoutSec => waitForToolReady toolId queryDelayMs timeoutSec
  | .enableDisableAxes axes enable => enableDisableAxes axes enable
  | .queueExtendedPointLegacy x y z a b feedrateUs => queueExtendedPointLegacy x y z a b feedrateUs
  | .setExtendedPosition x y z a b => setExtendedPosition x y z a b
  | .waitForPlatformReady toolId queryDelayMs timeoutSec => waitForPlatformReady toolId queryDelayMs timeoutSec
  | .queueExtendedPoint x y z a b durationUs axes => queueExtendedPoint x y z a b durationUs axes
  | .setRgbLed red green blue blinkRate => setRgbLed red green blue blinkRate
  | .toolAction toolId actionId payload => toolAction toolId actionId payload

end Sys2Proof.Laws.PayloadFits

namespace Sys2Proof.Machine

/-- The whole effect of `CMD_ACCEPT` of a descriptor that decodes, on an idle transmitter: the command's frame is
loaded (R124). -/
theorem cmdAccept_of_decode_eq_ok {d : Descriptor} {i : Instr} {s : State} (hd : decode d = .ok i)
    (hs : s.txBusy = false) : cmdAccept d s = .next (s.loadFrame (frameOf s.config i)) := by
  have hexec : cmdAccept d s = exec i s := by simp [cmdAccept, hs, hd]
  rw [hexec, exec_eq_accept, accept_fits hs (Laws.PayloadFits.statement i (wf_of_decode_eq_ok hd) s.config), frameOf]

end Sys2Proof.Machine
end

