-- ==== Sys2Proof/Proofs/FrameChecksum.lean ====
section
/-! A loaded frame ends in the checksum of its body (40_checksum.md R107): where body and check byte stand in a frame,
and what the buffer reads there. -/

namespace Sys2Proof.Machine

/-- The body of a frame starts at index 2, after sync and length (R120). -/
theorem frame_drop_two_take (l : Layout) : ((frame l).drop 2).take l.body.length = l.body := by
  simp [frame]

/-- The check byte stands right after the body (R120). -/
theorem frame_getElem?_check (l : Layout) : (frame l)[l.payload.length + 3]? = some (crc8 l.body) := by
  simp [frame, Layout.body]

theorem loadFrame_frame_txLen (s : State) (l : Layout) :
    (s.loadFrame (frame l)).txLen = l.payload.length + 4 := frame_length l

/-- The body of a loaded frame reads back from index 2. -/
theorem readBytes_loadFrame_body (s : State) (l : Layout) :
    (s.loadFrame (frame l)).txBuf.readBytes 2 (l.payload.length + 1) = some l.body := by
  have hrest := Memory.readBytes_drop (takesUp_loadFrame s (frame l)).holds (k := 2) (by simp)
  have hbody := Memory.readBytes_take hrest (k := l.payload.length + 1) (by rw [frame_length]; omega)
  exact hbody.trans (congrArg some (frame_drop_two_take l))

/-- The last byte of a loaded frame is the checksum of its body. -/
theorem read_loadFrame_check (s : State) (l : Layout) :
    (s.loadFrame (frame l)).txBuf.read (l.payload.length + 3) = some (crc8 l.body) := by
  have hread := Memory.read_of_readBytes (takesUp_loadFrame s (frame l)).holds (k := l.payload.length + 3) (by simp)
  rwa [Nat.zero_add, frame_getElem?_check] at hread

/-- Settles O31: an accepted descriptor loads its command's frame, whose body and check byte read back. -/
theorem acceptedFramesCarryTheirChecksum : Obligations.AcceptedFramesCarryTheirChecksum := by
  intro d i s hd hs
  refine ⟨s.loadFrame (frameOf s.config i), (layoutOf s.config i).body, cmdAccept_of_decode_eq_ok hd hs,
    ?body, ?check⟩ <;> rw [frameOf, loadFrame_frame_txLen]
  case body => exact readBytes_loadFrame_body s _
  case check => exact read_loadFrame_check s _

end Sys2Proof.Machine
end

