-- ==== Sys2Proof/Proofs/FrameParts.lean ====
section
/-! The five parts of a frame (41_frame_serializer.md R120). The sync byte and the id stand at fixed indexes; the length
byte counts the body, and a payload of up to 254 bytes leaves that count below 256. -/

namespace Sys2Proof.Machine

/-- The five parts of a frame, side by side (R120). -/
theorem frame_eq (l : Layout) : frame l =
    sync :: BitVec.ofNat 8 (l.payload.length + 1) :: l.id :: (l.payload ++ [crc8 (l.id :: l.payload)]) := rfl

/-- A payload that fits is counted, with the id, by the length byte without wrapping (R120, R122). -/
theorem toNat_lengthByte {l : Layout} (h : l.payload.length ≤ txPayloadMax) :
    (BitVec.ofNat 8 (l.payload.length + 1)).toNat = 1 + l.payload.length := by
  have hlt : l.payload.length + 1 < 2 ^ 8 := Nat.lt_succ_of_le (Nat.succ_le_succ h)
  rw [BitVec.toNat_ofNat, Nat.mod_eq_of_lt hlt, Nat.add_comm]

/-- The payload starts at index 3, after sync, length and id (R120). -/
theorem frame_drop_three_take (l : Layout) : ((frame l).drop 3).take l.payload.length = l.payload := by
  simp [frame_eq]

/-- Settles O10: each part is read off where it stands, and the length byte does not wrap. -/
theorem frameHasItsFiveParts : Obligations.FrameHasItsFiveParts := by
  refine ⟨fun l hl => ?parts, fun _ => rfl, by decide, by decide +kernel⟩
  case parts =>
    exact ⟨frame_length l, rfl, ⟨_, rfl, toNat_lengthByte hl⟩, rfl, frame_drop_three_take l, frame_getElem?_check l⟩

end Sys2Proof.Machine
end

