-- ==== Sys2Proof/Proofs/FeedChunks.lean ====
section
/-! Feeding in chunks (44_deframer.md R189): `feed` takes an append to one feed after the other, because going on from
an outcome is associative; a list of chunks folds to the feed of their concatenation from any outcome. -/

namespace Sys2Proof.Machine

@[simp] theorem andThen_next_right (o : Host.Outcome State Fault Refusal) : andThen o .next = o := by
  cases o <;> rfl

/-- A fault or a refusal ends the sequence wherever it is cut. -/
theorem andThen_assoc (o : Host.Outcome State Fault Refusal) (f g : State → Host.Outcome State Fault Refusal) :
    andThen (andThen o f) g = andThen o fun s => andThen (f s) g := by
  cases o <;> rfl

theorem feed_append (a b : List Byte) (s : State) : feed (a ++ b) s = andThen (feed a s) (feed b) := by
  induction a generalizing s with
  | nil => rfl
  | cons d a ih =>
    calc feed (d :: (a ++ b)) s
      _ = andThen (rxByte d s) (feed (a ++ b)) := feed_cons d (a ++ b) s
      _ = andThen (rxByte d s) fun t => andThen (feed a t) (feed b) := congrArg _ (funext ih)
      _ = andThen (feed (d :: a) s) (feed b) := (andThen_assoc _ _ _).symm

/-- Feeding chunk after chunk goes on from any outcome as the feed of the concatenation does. -/
theorem foldl_andThen_feed (chunks : List (List Byte)) (o : Host.Outcome State Fault Refusal) :
    chunks.foldl (fun o chunk => andThen o (feed chunk)) o = andThen o (feed chunks.flatten) := by
  induction chunks generalizing o with
  | nil => exact (andThen_next_right o).symm
  | cons chunk chunks ih =>
    rw [List.foldl_cons, ih, andThen_assoc, List.flatten_cons]
    exact congrArg _ (funext fun s => (feed_append chunk chunks.flatten s).symm)

/-- Settles O41: an append by induction on the first part, a list of chunks by induction on the list. -/
theorem feedingDoesNotDependOnChunks : Obligations.FeedingDoesNotDependOnChunks :=
  ⟨feed_append, fun chunks s => (foldl_andThen_feed chunks (.next s)).symm⟩

end Sys2Proof.Machine
end

