-- ==== Sys2Proof/Proofs/Reception.lean ====
section
/-! The deframer inside a frame (44_deframer.md R181 to R188): what `RX_BYTE` does with a byte that goes on with the
frame or ends it, one rule per case, and the step that takes this byte from the inbound stream. -/

namespace Sys2Proof.Machine

/-! ### One byte, by the state of the deframer -/

section
variable {s : State} {d : Byte}

/-- The sync byte starts a frame (R181). -/
theorem rxByte_sync (hs : s.rxState = .awaitSync) : rxByte sync s = .next { s with rxState := .awaitLength } := by
  simp [rxByte, hs, rxAwaitSync]

/-- A length in range opens the body (R184). -/
theorem rxByte_length (hs : s.rxState = .awaitLength) (hd : 1 ≤ d.toNat) :
    rxByte d s = .next { s with
      rxLen := d.toNat, rxRemaining := d.toNat, rxCrc := crcInit, rxState := .awaitPayload } := by
  have hmin : ¬ d.toNat < rxLenMin := Nat.not_lt.mpr hd
  simp [rxByte, hs, rxAwaitLength, hmin]

/-- A body byte that is due, inside `rx_buf`, is stored, folded and counted, and closes the host's window (R185). -/
theorem rxByte_body (hs : s.rxState = .awaitPayload) (hdue : 1 ≤ s.rxRemaining) (hle : s.rxRemaining ≤ s.rxLen)
    (hlen : s.rxLen ≤ 255) :
    rxByte d s = .next { s with
      rxBuf := s.rxBuf.write (s.rxLen - s.rxRemaining) d
      rxWindow := 0
      rxCrc := crcByte s.rxCrc d
      rxRemaining := s.rxRemaining - 1
      rxState := if s.rxRemaining = 1 then .awaitChecksum else .awaitPayload } := by
  have hne : s.rxRemaining ≠ 0 := Nat.ne_of_gt hdue
  have hindex : s.rxLen - s.rxRemaining < rxBufSize := by rw [rxBufSize]; omega
  have hlast : s.rxRemaining - 1 = 0 ↔ s.rxRemaining = 1 := by omega
  simp only [rxByte, hs, rxAwaitPayload, hne, hindex, hlast, if_true, if_false]

/-- The check byte that matches completes the response (R186). -/
theorem rxByte_check_eq {body : List Byte} {r : Response} (hs : s.rxState = .awaitChecksum) (hd : d = s.rxCrc)
    (hbody : s.rxBuf.readBytes 0 s.rxLen = some body) (hr : classify body = some r) :
    rxByte d s = .next (s.emitComplete r) := by
  simp [rxByte, hs, rxAwaitChecksum, hd, hbody, hr]

/-- A check byte that does not match gives up the frame (R186). -/
theorem rxByte_check_ne (hs : s.rxState = .awaitChecksum) (hd : d ≠ s.rxCrc) :
    rxByte d s = .next (s.raiseFraming .badChecksum) := by
  simp [rxByte, hs, rxAwaitChecksum, hd]

end

/-! ### The class of a body -/

/-- A body with its status byte has a class, which hands it over whole (R187). -/
theorem exists_classify_of_ne_nil {body : List Byte} (h : body ≠ []) :
    ∃ r, classify body = some r ∧ r.body = body := by
  obtain ⟨status, data, rfl⟩ := List.exists_cons_of_ne_nil h
  by_cases hok : status = statusOk
  · exact ⟨.acknowledged (status :: data), if_pos hok, rfl⟩
  · exact ⟨.deviceRejected status (status :: data), if_neg hok, rfl⟩

/-- A body of at least one byte that reads back from the buffer has its status byte. -/
theorem exists_classify_of_readBytes {m : Memory} {i n : Nat} {body : List Byte} (hn : 1 ≤ n)
    (h : m.readBytes i n = some body) : ∃ r, classify body = some r ∧ r.body = body := by
  have hlen : body.length = n := Memory.readBytes_length h
  exact exists_classify_of_ne_nil (List.ne_nil_of_length_pos (by omega))

/-! ### The step -/

/-- A scheduled `RX_BYTE` performs the deframer's rule on the front byte of the inbound stream (R190). -/
theorem step_rxByte {s : State} {rest : List Action} {d : Byte} {more : List Byte}
    (hsched : s.schedule = .rxByte :: rest) (hin : s.inbound = d :: more) :
    step s = rxByte d (Claims.byteTaken s rest more) := by
  rw [step_scheduled hsched]
  simp only [perform, takeInbound, State.beginStep_inbound, hin]
  rfl

/-- Settles O36: the sync, length and body rules, each on the state that has taken the byte. -/
theorem receptionOfAFrameUpToItsCheckByte : Obligations.ReceptionOfAFrameUpToItsCheckByte := by
  intro s rest d more hsched hin
  rw [step_rxByte hsched hin]
  refine ⟨fun hs hd => ?sync, fun hs hd => ?length, fun hs hdue hle hlen => ?body⟩
  case sync => rw [hd]; exact rxByte_sync hs
  case length => exact rxByte_length hs hd
  case body => exact ⟨0, rxByte_body hs hdue hle hlen⟩

/-- Settles O37: the check byte's two rules; a body that reads back with a byte in it has its class. -/
theorem checkByteDecidesTheFrame : Obligations.CheckByteDecidesTheFrame := by
  intro s rest d more body hsched hin hs hlen hbody
  rw [step_rxByte hsched hin]
  refine ⟨fun hd => ?equal, fun hd => rxByte_check_ne hs hd⟩
  case equal =>
    obtain ⟨r, hr, hrbody⟩ := exists_classify_of_readBytes hlen hbody
    exact ⟨r, hr, hrbody, s.rxLen, rxByte_check_eq hs hd hbody hr⟩

/-- Settles O40: past `AwaitSync` the rules for a length, a body byte and a check byte hold of every byte, so of this
one. -/
theorem syncByteIsDataInsideAFrame : Obligations.SyncByteIsDataInsideAFrame := by
  intro s
  refine ⟨fun hs => ?length, fun hs hdue hle hlen => ?body, fun hs hcrc => ?unequal,
    fun body hs hcrc hlen hbody => ?equal⟩
  case length => exact rxByte_length hs (by decide)
  case body => exact ⟨0, rxByte_body hs hdue hle hlen⟩
  case unequal => exact ⟨_, rxByte_check_ne hs hcrc.symm, rfl⟩
  case equal =>
    obtain ⟨r, hr, hrbody⟩ := exists_classify_of_readBytes hlen hbody
    exact ⟨_, r, ⟨s.rxLen, rxByte_check_eq hs hcrc.symm hbody hr⟩, hr, hrbody, rfl⟩

end Sys2Proof.Machine
end

