-- ==== Sys2Proof/Proofs/DescriptorCoding.lean ====
section
/-! The descriptor decoder against the encoder (30_encoding.md R85 to R88): operands survive their slots, a byte string
within its cap survives `vlen` and `v`, and the decoder refuses two kinds of descriptor and no other. -/

namespace Sys2Proof

/-! ### Slots -/

@[simp] theorem low8_setWidth (b : Byte) : low8 (b.setWidth 32) = b := by
  rw [low8, BitVec.setWidth_setWidth_of_le b (by decide), BitVec.setWidth_eq]

@[simp] theorem low16_setWidth (h : Half) : low16 (h.setWidth 32) = h := by
  rw [low16, BitVec.setWidth_setWidth_of_le h (by decide), BitVec.setWidth_eq]

theorem low8_eq_extractLsb' (w : Word) : low8 w = w.extractLsb' 0 8 := BitVec.setWidth_eq_extractLsb' (by decide)

theorem low16_eq_extractLsb' (w : Word) : low16 w = w.extractLsb' 0 16 := BitVec.setWidth_eq_extractLsb' (by decide)

/-- A byte operand depends on the low eight bits of its slot alone. -/
theorem low8_congr {w w' : Word} (h : Claims.SameLow 8 w w') : low8 w = low8 w' :=
  BitVec.eq_of_toNat_eq (by simpa [low8, Claims.SameLow] using h)

/-- A half operand depends on the low sixteen bits of its slot alone. -/
theorem low16_congr {w w' : Word} (h : Claims.SameLow 16 w w') : low16 w = low16 w' :=
  BitVec.eq_of_toNat_eq (by simpa [low16, Claims.SameLow] using h)

/-! ### The byte string -/

theorem Descriptor.boundedBytes_of_le {d : Descriptor} {cap : Nat} (h : d.vlen.toNat ≤ cap) :
    d.boundedBytes cap = .ok (d.v.toList.take d.vlen.toNat) := if_pos h

theorem Descriptor.boundedBytes_of_lt {d : Descriptor} {cap : Nat} (h : cap < d.vlen.toNat) :
    d.boundedBytes cap = .error .tooLong := if_neg (Nat.not_le.mpr h)

/-- A byte string of at most 253 bytes reads back from `vlen` and `v`. -/
theorem Descriptor.boundedBytes_withBytes (d : Descriptor) {bytes : List Byte} {cap : Nat} (hb : bytes.length ≤ cap)
    (hcap : cap ≤ 253) : (d.withBytes bytes).boundedBytes cap = .ok bytes := by
  have hlen : (d.withBytes bytes).vlen.toNat = bytes.length := by
    rw [Descriptor.withBytes, BitVec.toNat_ofNat]
    exact Nat.mod_eq_of_lt (by omega)
  have hv : (d.withBytes bytes).v.toList = (bytes ++ List.replicate 253 0).take 253 := rfl
  rw [Descriptor.boundedBytes_of_le (hlen.trans_le hb), hlen, hv, List.take_take, Nat.min_eq_left (by omega),
    List.take_left]

theorem Descriptor.boundedBytes_congr {d d' : Descriptor} (h : Claims.SameBytes d d') (cap : Nat) :
    d.boundedBytes cap = d'.boundedBytes cap := by
  obtain ⟨hlen, hbytes⟩ := h
  unfold Descriptor.boundedBytes Descriptor.bytes
  rw [hbytes, hlen]

/-! ### The three commands with a byte string -/

section
variable {d : Descriptor}

theorem decode_toolQuery (h : d.tag = 6) :
    decode d = (d.boundedBytes 253).map fun v => .toolQuery (low8 d.w0) v := by
  simp [decode, h]

theorem decode_eepromWrite (h : d.tag = 9) :
    decode d = (d.boundedBytes 251).map fun v => .eepromWrite (low16 d.w0) (low8 d.w1) v := by
  simp [decode, h]

theorem decode_toolAction (h : d.tag = 24) :
    decode d = (d.boundedBytes 252).map fun v => .toolAction (low8 d.w0) (low8 d.w1) v := by
  simp [decode, h]

end

/-- Settles O13: a numeric operand fits its slot, and a byte string within its cap fits `v`. -/
theorem decodeInvertsEncode : Obligations.DecodeInvertsEncode := by
  intro i hi
  cases i with
  | toolQuery toolIndex q =>
    have hq : q.length ≤ 253 := of_decide_eq_true hi
    rw [decode_toolQuery rfl, encode, Descriptor.boundedBytes_withBytes _ hq (by decide)]
    simp [Except.map, Descriptor.withBytes]
  | eepromWrite offset n q =>
    have hq : q.length ≤ 251 := of_decide_eq_true hi
    rw [decode_eepromWrite rfl, encode, Descriptor.boundedBytes_withBytes _ hq (by decide)]
    simp [Except.map, Descriptor.withBytes]
  | toolAction toolId actionId q =>
    have hq : q.length ≤ 252 := of_decide_eq_true hi
    rw [decode_toolAction rfl, encode, Descriptor.boundedBytes_withBytes _ hq (by decide)]
    simp [Except.map, Descriptor.withBytes]
  | _ => simp [encode, decode, Descriptor.ofTag]

/-! ### What the decoder refuses -/

/-- The byte string is longer than the command's length byte allows (R88). -/
def Descriptor.Overlong (d : Descriptor) : Prop :=
  (d.tag = 6 ∧ 253 < d.vlen.toNat) ∨ (d.tag = 9 ∧ 251 < d.vlen.toNat) ∨ (d.tag = 24 ∧ 252 < d.vlen.toNat)

theorem decode_badTag {d : Descriptor} (h : 25 ≤ d.tag.toNat) : decode d = .error .badTag := by
  unfold decode
  split
  case h_26 => rfl
  all_goals omega

theorem decode_overlong {d : Descriptor} (h : d.Overlong) : decode d = .error .tooLong := by
  rcases h with ⟨ht, hlen⟩ | ⟨ht, hlen⟩ | ⟨ht, hlen⟩
  · rw [decode_toolQuery ht, Descriptor.boundedBytes_of_lt hlen]; rfl
  · rw [decode_eepromWrite ht, Descriptor.boundedBytes_of_lt hlen]; rfl
  · rw [decode_toolAction ht, Descriptor.boundedBytes_of_lt hlen]; rfl

/-- A byte string is refused for its length alone. -/
theorem Descriptor.boundedBytes_map_eq_error {d : Descriptor} {cap : Nat} {f : List Byte → Instr}
    {reason : RefuseReason} (h : (d.boundedBytes cap).map f = .error reason) :
    reason = .tooLong ∧ cap < d.vlen.toNat := by
  by_cases hlen : d.vlen.toNat ≤ cap
  · rw [Descriptor.boundedBytes_of_le hlen] at h; cases h
  · rw [Descriptor.boundedBytes_of_lt (by omega)] at h; cases h; exact ⟨rfl, by omega⟩

/-- The two ways to be refused. -/
theorem decode_eq_error {d : Descriptor} {reason : RefuseReason} (h : decode d = .error reason) :
    (reason = .badTag ∧ 25 ≤ d.tag.toNat) ∨ (reason = .tooLong ∧ d.Overlong) := by
  unfold decode at h
  split at h
  case h_7 ht =>
    obtain ⟨hr, hlen⟩ := Descriptor.boundedBytes_map_eq_error h
    exact .inr ⟨hr, .inl ⟨BitVec.eq_of_toNat_eq ht, hlen⟩⟩
  case h_10 ht =>
    obtain ⟨hr, hlen⟩ := Descriptor.boundedBytes_map_eq_error h
    exact .inr ⟨hr, .inr (.inl ⟨BitVec.eq_of_toNat_eq ht, hlen⟩)⟩
  case h_25 ht =>
    obtain ⟨hr, hlen⟩ := Descriptor.boundedBytes_map_eq_error h
    exact .inr ⟨hr, .inr (.inr ⟨BitVec.eq_of_toNat_eq ht, hlen⟩)⟩
  case h_26 => cases h; exact .inl ⟨rfl, by grind⟩
  all_goals cases h

/-- Settles O14: each reason is given to its own descriptors, and the two ways to be refused are all. -/
theorem decoderRefusesExactlyTheIllFormed : Obligations.DecoderRefusesExactlyTheIllFormed := by
  refine ⟨fun d i => wf_of_decode_eq_ok, fun d => ⟨fun h => ?badTag, decode_badTag⟩,
    fun d => ⟨fun h => ?tooLong, decode_overlong⟩⟩
  case badTag =>
    obtain ⟨-, ht⟩ | ⟨hr, -⟩ := decode_eq_error h
    · exact ht
    · cases hr
  case tooLong =>
    obtain ⟨hr, -⟩ | ⟨-, hd⟩ := decode_eq_error h
    · cases hr
    · exact hd

/-- Settles O15: tag by tag, the decoder's arm reads the bound slots through `low8`, `low16` and the byte string; the
arms of the tags without a bound slot read nothing. -/
theorem decodeReadsOnlyBoundSlots : Obligations.DecodeReadsOnlyBoundSlots := by
  intro d d' htag h
  have ht : d'.tag.toNat = d.tag.toNat := by rw [htag]
  unfold decode
  rw [ht]
  unfold Claims.SameBoundSlots at h
  split at h
  case h_1 hk =>
    obtain ⟨h0, hv⟩ := h
    simp only [hk, low8_congr h0, Descriptor.boundedBytes_congr hv]
  case h_2 hk =>
    obtain ⟨h0, h1⟩ := h
    simp only [hk, low16_congr h0, low8_congr h1]
  case h_3 hk =>
    obtain ⟨h0, h1, hv⟩ := h
    simp only [hk, low16_congr h0, low8_congr h1, Descriptor.boundedBytes_congr hv]
  case h_4 hk => simp only [hk, h]
  case h_5 hk | h_6 hk =>
    obtain ⟨hm, h0, h1⟩ := h
    simp only [hk, hm, h0, low16_congr h1]
  case h_7 hk => simp only [hk, low8_congr h]
  case h_8 hk | h_9 hk =>
    obtain ⟨h0, h1, h2⟩ := h
    simp only [hk, low8_congr h0, low16_congr h1, low16_congr h2]
  case h_10 hk | h_11 hk | h_12 hk | h_13 hk => simp only [hk, h]
  case h_14 hk =>
    obtain ⟨h0, h1, h2, h3⟩ := h
    simp only [hk, low8_congr h0, low8_congr h1, low8_congr h2, low8_congr h3]
  case h_15 hk =>
    obtain ⟨h0, h1, hv⟩ := h
    simp only [hk, low8_congr h0, low8_congr h1, Descriptor.boundedBytes_congr hv]
  case h_16 =>
    split <;> tauto

/-- Settles O11: the row of each word gives its tag, and the decoder the command. -/
theorem tableWordsDecodeToTheirRows : Obligations.TableWordsDecodeToTheirRows := by
  refine ⟨?_, ?_, ?_, ?_, ?_, ?_, ?_, ?_, ?_, ?_, ?_⟩ <;> decide +kernel

end Sys2Proof
end

