-- ==== Sys2Proof/Proofs/AgentFrames.lean ====
section
/-! What each agent's step reads and writes (10_state.md R35). A step of the RX agent is determined by the RX state and
writes nothing else but events; a step of the TX agent by the TX state and the constants, and it writes nothing else but
events and the outbound stream. Both are said by running the same step from any other state into which what it reads has
been put: the frame conditions, the noninterference and the commutation of the two agents are read off from that. -/

namespace Sys2Proof.Machine

/-! ### States put together from two -/

/-- `o` with the RX state of `s`, and these events raised. -/
def State.withRxOf (o s : State) (raised : List Event) : State :=
  { o with
    rxState := s.rxState, rxLen := s.rxLen, rxRemaining := s.rxRemaining, rxCrc := s.rxCrc, rxBuf := s.rxBuf
    rxWindow := s.rxWindow, pulses := o.pulses ++ raised, events := o.events ++ raised }

/-- `o` with the TX state of `s`, these bytes sent, and these events raised. -/
def State.withTxOf (o s : State) (sent : List Byte) (raised : List Event) : State :=
  { o with
    txBusy := s.txBusy, txIdx := s.txIdx, txLen := s.txLen, txBuf := s.txBuf, outbound := o.outbound ++ sent
    pulses := o.pulses ++ raised, events := o.events ++ raised }

/-- Agreeing on the RX state is having the other's RX state put in. -/
theorem State.SameRx.withRxOf_eq {s o : State} (h : s.SameRx o) : o.withRxOf s [] = o := by
  obtain ⟨hstate, hlen, hremaining, hcrc, hbuf, hwindow⟩ := h
  simp [State.withRxOf, ← hstate, ← hlen, ← hremaining, ← hcrc, ← hbuf, ← hwindow]

theorem State.SameRx.refl (s : State) : s.SameRx s := ⟨rfl, rfl, rfl, rfl, rfl, rfl⟩

theorem State.SameTx.refl (s : State) : s.SameTx s := ⟨rfl, rfl, rfl, rfl⟩

@[simp] theorem State.withRxOf_self (s : State) : s.withRxOf s [] = s := (State.SameRx.refl s).withRxOf_eq

@[simp] theorem State.withTxOf_self (s : State) : s.withTxOf s [] [] = s := by simp [State.withTxOf]

theorem State.sameRx_withRxOf (o s : State) (raised : List Event) : s.SameRx (o.withRxOf s raised) :=
  ⟨rfl, rfl, rfl, rfl, rfl, rfl⟩

theorem State.sameRx_withTxOf (o s : State) (sent : List Byte) (raised : List Event) :
    o.SameRx (o.withTxOf s sent raised) :=
  ⟨rfl, rfl, rfl, rfl, rfl, rfl⟩

/-! ### The RX agent -/

section
variable {s : State} {d : Byte}

/-- Outside a frame any byte but the sync byte is discarded and reported (R182). -/
theorem rxByte_discard (hs : s.rxState = .awaitSync) (hd : d ≠ sync) : rxByte d s = .next (s.emit (.rxDiscard d)) := by
  simp [rxByte, hs, rxAwaitSync, hd]

/-- A length below the least legal one gives up the frame (R183). -/
theorem rxByte_badLength (hs : s.rxState = .awaitLength) (hd : d.toNat < rxLenMin) :
    rxByte d s = .next (s.raiseFraming .badLength) := by
  simp [rxByte, hs, rxAwaitLength, hd]

/-- The body rule under the model's own guards (R185). -/
theorem rxByte_store (hs : s.rxState = .awaitPayload) (hdue : s.rxRemaining ≠ 0)
    (hindex : s.rxLen - s.rxRemaining < rxBufSize) :
    rxByte d s = .next { s with
      rxBuf := s.rxBuf.write (s.rxLen - s.rxRemaining) d
      rxWindow := 0
      rxCrc := crcByte s.rxCrc d
      rxRemaining := s.rxRemaining - 1
      rxState := if s.rxRemaining - 1 = 0 then .awaitChecksum else .awaitPayload } := by
  simp only [rxByte, hs, rxAwaitPayload, hdue, hindex, if_true, if_false]

end

/-- `RX_BYTE(d)` reads RX state alone, and writes RX state and at most one event. -/
theorem rxByte_local {d : Byte} {s t : State} (h : rxByte d s = .next t) :
    ∃ raised : List Event, raised.length ≤ 1 ∧ t = s.withRxOf t raised ∧
      ∀ o : State, rxByte d (o.withRxOf s []) = .next (o.withRxOf t raised) := by
  suffices hlocal : ∃ raised : List Event, raised.length ≤ 1 ∧
      ∀ o : State, rxByte d (o.withRxOf s []) = .next (o.withRxOf t raised) by
    obtain ⟨raised, hone, hlocal⟩ := hlocal
    have hself := hlocal s
    rw [State.withRxOf_self, h] at hself
    exact ⟨raised, hone, Host.Outcome.next.inj hself, hlocal⟩
  rcases rxByte_cases h with ⟨hs, rfl, rfl⟩ | ⟨hs, hd, rfl⟩ | ⟨hs, hd, rfl⟩ | ⟨hs, hd, rfl⟩ | ⟨hs, hdue, hidx, rfl⟩ |
    ⟨hs, hd, rfl⟩ | ⟨hs, hd, r, hr, rfl⟩
  · exact ⟨[], by simp, fun o => rxByte_sync (s := o.withRxOf s []) hs⟩
  · exact ⟨[.rxDiscard d], by simp, fun o => (rxByte_discard (s := o.withRxOf s []) hs hd).trans
      (by simp [State.withRxOf, State.emit])⟩
  · exact ⟨[.framingError .badLength], by simp, fun o => (rxByte_badLength (s := o.withRxOf s []) hs hd).trans
      (by simp [State.withRxOf, State.raiseFraming, State.emit])⟩
  · exact ⟨[], by simp, fun o => rxByte_length (s := o.withRxOf s []) hs hd⟩
  · exact ⟨[], by simp, fun o => rxByte_store (s := o.withRxOf s []) hs hdue hidx⟩
  · exact ⟨[.framingError .badChecksum], by simp, fun o => (rxByte_check_ne (s := o.withRxOf s []) hs hd).trans
      (by simp [State.withRxOf, State.raiseFraming, State.emit])⟩
  · obtain ⟨body, hbody, hclass⟩ := Option.bind_eq_some_iff.1 hr
    exact ⟨[.complete r], by simp, fun o => (rxByte_check_eq (s := o.withRxOf s []) hs hd hbody hclass).trans
      (by simp [State.withRxOf, State.emitComplete, State.emit])⟩

/-- So does `RX_TIMEOUT`. -/
theorem rxTimeout_local (s : State) :
    ∃ raised : List Event, raised.length ≤ 1 ∧
      ∀ o : State, rxTimeout (o.withRxOf s []) = o.withRxOf (rxTimeout s) raised := by
  rcases rxTimeout_cases s with ⟨hs, h⟩ | ⟨hs, h⟩
  · exact ⟨[], by simp, fun o => by rw [h]; exact if_pos hs⟩
  · refine ⟨[.framingError .truncated], by simp, fun o => ?_⟩
    rw [h, rxTimeout, if_neg (by exact hs)]
    simp [State.withRxOf, State.raiseFraming, State.emit]

/-- The same of a scheduled step of the RX agent, which takes from the inbound stream as well. -/
theorem perform_rx_local {a : Action} {s t : State} (ha : a = .rxByte ∨ a = .rxTimeout) (h : perform a s = .next t) :
    ∃ raised : List Event, raised.length ≤ 1 ∧ t = { s with inbound := t.inbound }.withRxOf t raised ∧
      ∀ o : State, perform a ({ o with inbound := s.inbound }.withRxOf s []) =
        .next ({ o with inbound := t.inbound }.withRxOf t raised) := by
  suffices hlocal : ∃ raised : List Event, raised.length ≤ 1 ∧
      ∀ o : State, perform a ({ o with inbound := s.inbound }.withRxOf s []) =
        .next ({ o with inbound := t.inbound }.withRxOf t raised) by
    obtain ⟨raised, hone, hlocal⟩ := hlocal
    have hself := hlocal s
    rw [State.withRxOf_self, h] at hself
    exact ⟨raised, hone, Host.Outcome.next.inj hself, hlocal⟩
  rcases ha with rfl | rfl
  · cases hin : s.inbound with
    | nil =>
      obtain rfl : s = t := by simpa [perform, takeInbound, hin] using h
      exact ⟨[], by simp, fun o => by rw [hin]; rfl⟩
    | cons d more =>
      replace h : rxByte d { s with inbound := more } = .next t := by simpa [perform, takeInbound, hin] using h
      obtain ⟨raised, hone, hself, hlocal⟩ := rxByte_local h
      have hmore : t.inbound = more := by rw [hself]; rfl
      exact ⟨raised, hone, fun o => by rw [hmore]; exact hlocal { o with inbound := more }⟩
  · cases h
    obtain ⟨raised, hone, hlocal⟩ := rxTimeout_local s
    have hin : (rxTimeout s).inbound = s.inbound := by
      have ht := congrArg State.inbound (hlocal s)
      rwa [State.withRxOf_self] at ht
    exact ⟨raised, hone, fun o => by rw [hin]; exact congrArg _ (hlocal { o with inbound := s.inbound })⟩

/-! ### The TX agent -/

/-- The byte at the position goes out and the position moves (R126). -/
theorem txEmit_busy {s : State} {b : Byte} (hb : s.txBusy = true) (hread : s.txBuf.read s.txIdx = some b) :
    txEmit s = .next (s.txPut b).txAdvance := by
  simp only [txEmit, hb, hread, if_true]

/-- Not enabled while nothing is being sent (R126). -/
theorem txEmit_idle {s : State} (hb : s.txBusy = false) : txEmit s = .next s := by
  simp [txEmit, hb]

/-- A command: whether its frame is loaded depends on the constants and `tx_busy` alone, and nothing else happens. -/
theorem exec_local {i : Instr} {s t : State} (h : exec i s = .next t) :
    ∃ raised : List Event, raised.length ≤ 1 ∧
      ∀ o : State, exec i ({ o with config := s.config }.withTxOf s [] []) =
        .next ({ o with config := s.config }.withTxOf t [] raised) := by
  rw [exec_eq_accept] at h
  rcases accept_cases h with ⟨hb, rfl⟩ | ⟨hb, hl, rfl⟩ | ⟨hb, hl, rfl⟩
  · exact ⟨[], by simp, fun o => by rw [exec_eq_accept]; exact accept_busy _ hb⟩
  · exact ⟨[], by simp, fun o => by rw [exec_eq_accept]; exact accept_fits hb hl⟩
  · refine ⟨[.cmdRefused .tooLong], by simp, fun o => ?_⟩
    rw [exec_eq_accept, accept_tooLong (by exact hb) (by exact hl)]
    simp [State.withTxOf, State.emit]

/-- A step of the TX agent reads TX state and the constants alone, and writes TX state, the outbound stream and at most
one event. -/
theorem perform_tx_local {a : Action} {s t : State} (ha : a = .txEmit ∨ a.isCmdAccept = true)
    (h : perform a s = .next t) :
    ∃ (sent : List Byte) (raised : List Event), raised.length ≤ 1 ∧ t = s.withTxOf t sent raised ∧
      ∀ o : State, perform a ({ o with config := s.config }.withTxOf s [] []) =
        .next ({ o with config := s.config }.withTxOf t sent raised) := by
  suffices hlocal : ∃ (sent : List Byte) (raised : List Event), raised.length ≤ 1 ∧
      ∀ o : State, perform a ({ o with config := s.config }.withTxOf s [] []) =
        .next ({ o with config := s.config }.withTxOf t sent raised) by
    obtain ⟨sent, raised, hone, hlocal⟩ := hlocal
    have hself := hlocal s
    rw [State.withTxOf_self, h] at hself
    exact ⟨sent, raised, hone, Host.Outcome.next.inj hself, hlocal⟩
  cases a with
  | cmdAccept d =>
    refine ⟨[], ?_⟩
    rcases cmdAccept_cases h with ⟨hb, rfl⟩ | ⟨hb, reason, hd, rfl⟩ | ⟨hb, i, hd, hi⟩
    · exact ⟨[], by simp, fun o => if_pos hb⟩
    · refine ⟨[.cmdRefused reason], by simp, fun o => ?_⟩
      simp [perform, cmdAccept, State.withTxOf, State.emit, hb, hd]
    · obtain ⟨raised, hone, hlocal⟩ := exec_local hi
      refine ⟨raised, hone, fun o => (hlocal o).symm ▸ ?_⟩
      simp [perform, cmdAccept, State.withTxOf, hb, hd]
  | txEmit =>
    rcases txEmit_cases h with ⟨hb, rfl⟩ | ⟨hb, b, hread, rfl⟩
    · exact ⟨[], [], by simp, fun o => txEmit_idle hb⟩
    · refine ⟨[b], [], by simp, fun o => ?_⟩
      rw [perform, txEmit_busy (by exact hb) (by exact hread)]
      by_cases hlast : s.txIdx + 1 = s.txLen <;>
        simp [State.withTxOf, State.txPut, State.txAdvance, hb, hlast]
  | rxByte | rxTimeout | reset => simp [Action.isCmdAccept] at ha

end Sys2Proof.Machine
end

