-- ==== Sys2Proof/Proofs/Noninterference.lean ====
section
/-! The two agents share no state (10_state.md sections 5 and 7), what a step keeps, and `feed` as the machine's own
steps: all read off from what each agent's step reads and writes. -/

namespace Sys2Proof.Machine

/-! ### One step of either agent -/

theorem State.SameRx.trans {s t u : State} (h : s.SameRx t) (h' : t.SameRx u) : s.SameRx u :=
  ⟨h'.state.trans h.state, h'.len.trans h.len, h'.remaining.trans h.remaining, h'.crc.trans h.crc,
    h'.buf.trans h.buf, h'.window.trans h.window⟩

theorem State.SameTx.trans {s t u : State} (h : s.SameTx t) (h' : t.SameTx u) : s.SameTx u :=
  ⟨h'.busy.trans h.busy, h'.idx.trans h.idx, h'.len.trans h.len, h'.buf.trans h.buf⟩

/-- Every scheduled step is one of the TX agent, one of the RX agent, or `RESET`. -/
theorem perform_effect {a : Action} {s t : State} (h : perform a s = .next t) :
    (∃ (sent : List Byte) (raised : List Event), raised.length ≤ 1 ∧ t = s.withTxOf t sent raised) ∨
      (∃ raised : List Event, raised.length ≤ 1 ∧ t = { s with inbound := t.inbound }.withRxOf t raised) ∨
      (a = .reset ∧ t = s.resetBlock) := by
  have htx (ha : a = .txEmit ∨ a.isCmdAccept = true) := perform_tx_local ha h
  have hrx (ha : a = .rxByte ∨ a = .rxTimeout) := perform_rx_local ha h
  cases a with
  | cmdAccept | txEmit =>
    obtain ⟨sent, raised, hone, ht, -⟩ := htx (by simp [Action.isCmdAccept])
    exact .inl ⟨sent, raised, hone, ht⟩
  | rxByte | rxTimeout =>
    obtain ⟨raised, hone, ht, -⟩ := hrx (by simp)
    exact .inr (.inl ⟨raised, hone, ht⟩)
  | reset => exact .inr (.inr ⟨rfl, (Host.Outcome.next.inj h).symm⟩)

/-- No step writes the constants, and every step moves the schedule on by one. -/
theorem step_config_schedule {s t : State} (h : step s = .next t) :
    t.config = s.config ∧ t.schedule = s.schedule.tail := by
  cases hs : s.schedule with
  | nil =>
    rw [step_idle hs] at h
    cases h
    exact ⟨rfl, rfl⟩
  | cons a rest =>
    rw [step_scheduled hs] at h
    rcases perform_effect h with ⟨sent, raised, -, ht⟩ | ⟨raised, -, ht⟩ | ⟨-, ht⟩ <;> rw [ht] <;> exact ⟨rfl, rfl⟩

/-- A step raises at most one event, and the observation gains exactly its pulses. -/
theorem step_events {s t : State} (h : step s = .next t) :
    t.pulses.length ≤ 1 ∧ t.events = s.events ++ t.pulses := by
  cases hs : s.schedule with
  | nil =>
    rw [step_idle hs] at h
    cases h
    simp
  | cons a rest =>
    rw [step_scheduled hs] at h
    rcases perform_effect h with ⟨sent, raised, hone, ht⟩ | ⟨raised, hone, ht⟩ | ⟨-, ht⟩
    · rw [ht]; exact ⟨hone, rfl⟩
    · rw [ht]; exact ⟨hone, rfl⟩
    · rw [ht]; simp

theorem txEmit_pulses {s t : State} (h : txEmit s = .next t) : t.pulses = s.pulses := by
  rcases txEmit_cases h with ⟨-, rfl⟩ | ⟨-, b, -, rfl⟩ <;> simp

/-- Settles O51: each agent's step raises at most one event, and `TX_EMIT` moves a byte only. -/
theorem stepsRaiseAtMostOneEvent : Obligations.StepsRaiseAtMostOneEvent := by
  intro s t h
  obtain ⟨hone, hevents⟩ := step_events h
  refine ⟨hone, hevents, fun hquiet => ?_⟩
  rcases step_cases h with ⟨-, rfl⟩ | ⟨rest, ⟨d, hs, -⟩ | ⟨-, ht⟩ | ⟨hs, -⟩ | ⟨d, more, hs, -⟩ | ⟨hs, -⟩ | ⟨-, rfl⟩⟩
  · rfl
  · simp [hs] at hquiet
  · exact txEmit_pulses ht
  · simp [hs] at hquiet
  · simp [hs] at hquiet
  · simp [hs] at hquiet
  · rfl

/-- Settles O52: the frame conditions of the two agents. -/
theorem txAndRxShareNoState : Obligations.TxAndRxShareNoState := by
  intro s t a rest hs h
  rw [step_scheduled hs] at h
  refine ⟨fun ha => ?tx, fun ha => ?rx⟩
  case tx =>
    obtain ⟨sent, raised, -, ht, -⟩ := perform_tx_local ha h
    rw [ht]
    exact ⟨⟨rfl, rfl, rfl, rfl, rfl, rfl⟩, rfl⟩
  case rx =>
    obtain ⟨raised, -, ht, -⟩ := perform_rx_local ha h
    rw [ht]
    exact ⟨⟨rfl, rfl, rfl, rfl⟩, rfl⟩

/-- Settles O53: the deframer's step from one state is its step from any other with the same RX state put in. -/
theorem deframerDependsOnRxStateAlone : Obligations.DeframerDependsOnRxStateAlone := by
  intro d s s' t hsame h
  obtain ⟨raised, -, hself, hlocal⟩ := rxByte_local h
  have ht' := hlocal s'
  rw [hsame.withRxOf_eq] at ht'
  exact ⟨_, raised, ht', State.sameRx_withRxOf s' t raised, congrArg State.events hself, rfl⟩

/-- Putting in one agent's effect and then the other's differs from the other order in the order of the events alone. -/
theorem withTxOf_withRxOf_comm (s tx rx : State) (sent : List Byte) (raisedTx raisedRx : List Event) :
    let t := { s.withTxOf tx sent raisedTx with inbound := rx.inbound }.withRxOf rx raisedRx
    let u := ({ s with inbound := rx.inbound }.withRxOf rx raisedRx).withTxOf tx sent raisedTx
    t.SameButEvents u ∧ u.events.Perm t.events ∧ u.pulses.Perm t.pulses := by
  have hswap (l : List Event) : (l ++ raisedRx ++ raisedTx).Perm (l ++ raisedTx ++ raisedRx) := by
    rw [List.append_assoc, List.append_assoc]
    exact List.perm_append_comm.append_left l
  exact ⟨rfl, hswap s.events, hswap s.pulses⟩

/-- Settles O54: each step is run from the state the other has left, which agrees on what it reads. -/
theorem txAndRxStepsCommute : Obligations.TxAndRxStepsCommute := by
  intro s t tx rx htx hrx h
  obtain ⟨t₁, h₁, h₂⟩ := andThen_eq_next h
  obtain ⟨sent, raisedTx, -, ht₁, hlocalTx⟩ := perform_tx_local htx h₁
  obtain ⟨raisedRx, -, ht, hlocalRx⟩ := perform_rx_local hrx h₂
  have hrxFirst : perform rx s = .next ({ s with inbound := t.inbound }.withRxOf t raisedRx) := by
    have hs : { s with inbound := t₁.inbound }.withRxOf t₁ [] = s := by
      rw [ht₁]
      exact State.withRxOf_self s
    rw [← hlocalRx s, hs]
  have htxThen := hlocalTx ({ s with inbound := t.inbound }.withRxOf t raisedRx)
  have hs : ({ s with inbound := t.inbound }.withRxOf t raisedRx).withTxOf s [] [] =
      { s with inbound := t.inbound }.withRxOf t raisedRx := State.withTxOf_self _
  have hsame := withTxOf_withRxOf_comm s t₁ t sent raisedTx raisedRx
  rw [← ht₁, ← ht] at hsame
  exact ⟨_, by rw [hrxFirst]; exact (congrArg (perform tx) hs).symm.trans htxThen, hsame⟩

/-- Only the body rule writes `rx_buf`. -/
theorem rxByte_rxBuf {d : Byte} {s t : State} (h : rxByte d s = .next t) :
    t.rxBuf = s.rxBuf ∨ s.rxState = .awaitPayload := by
  rcases rxByte_cases h with ⟨-, -, rfl⟩ | ⟨-, -, rfl⟩ | ⟨-, -, rfl⟩ | ⟨-, -, rfl⟩ | ⟨hs, -⟩ | ⟨-, -, rfl⟩ |
    ⟨-, -, r, -, rfl⟩
  case inr.inr.inr.inr.inl => exact .inr hs
  all_goals exact .inl rfl

theorem rxBuf_of_perform_tx {a : Action} {s t : State} (ha : a = .txEmit ∨ a.isCmdAccept = true)
    (h : perform a s = .next t) : t.rxBuf = s.rxBuf := by
  obtain ⟨sent, raised, -, ht, -⟩ := perform_tx_local ha h
  rw [ht]
  rfl

theorem rxTimeout_rxBuf (s : State) : (rxTimeout s).rxBuf = s.rxBuf := by
  rcases rxTimeout_cases s with ⟨-, h⟩ | ⟨-, h⟩ <;> simp [h]

/-- Settles O55: only the RX agent writes `rx_buf`, and of its steps only the body rule. -/
theorem constantsAndBodyBufferAreKept : Obligations.ConstantsAndBodyBufferAreKept := by
  intro s t h
  obtain ⟨hconfig, hschedule⟩ := step_config_schedule h
  refine ⟨hconfig, hschedule, ?_⟩
  rcases step_cases h with ⟨-, rfl⟩ | ⟨rest, ⟨d, -, ht⟩ | ⟨-, ht⟩ | ⟨-, -, rfl⟩ | ⟨d, more, hs, -, ht⟩ | ⟨-, rfl⟩ |
    ⟨hs, -⟩⟩
  · exact .inl rfl
  · exact .inl (rxBuf_of_perform_tx (a := .cmdAccept d) (s := s.beginStep rest) (.inr rfl) ht)
  · exact .inl (rxBuf_of_perform_tx (a := .txEmit) (s := s.beginStep rest) (.inl rfl) ht)
  · exact .inl rfl
  · exact (rxByte_rxBuf ht).imp_right fun hp => .inl ⟨by simp [hs], hp⟩
  · exact .inl (rxTimeout_rxBuf _)
  · exact .inr (.inr (by simp [hs]))

/-- `RX_BYTE(d)` itself leaves both streams alone; the step that schedules a byte has taken it before. -/
theorem rxByte_streams {d : Byte} {s t : State} (h : rxByte d s = .next t) :
    t.outbound = s.outbound ∧ t.inbound = s.inbound := by
  obtain ⟨raised, -, ht, -⟩ := rxByte_local h
  rw [ht]
  exact ⟨rfl, rfl⟩

/-- Settles O34: the outbound stream grows by `TX_EMIT` alone, the inbound one shrinks by `RX_BYTE` alone. -/
theorem streamsMoveOneByteAStep : Obligations.StreamsMoveOneByteAStep := by
  intro s t h
  rcases step_cases h with ⟨-, rfl⟩ | ⟨rest, ⟨d, -, ht⟩ | ⟨hs, ht⟩ | ⟨-, -, rfl⟩ | ⟨d, more, hs, hin, ht⟩ | ⟨-, rfl⟩ |
    ⟨-, rfl⟩⟩
  · exact ⟨.inl rfl, .inl rfl⟩
  · rcases cmdAccept_effect ht with ⟨-, rfl⟩ | ⟨-, r, rfl⟩ | ⟨-, l, -, rfl⟩ <;> exact ⟨.inl rfl, .inl rfl⟩
  · rcases txEmit_cases ht with ⟨-, rfl⟩ | ⟨hb, b, hread, rfl⟩
    · exact ⟨.inl rfl, .inl rfl⟩
    · exact ⟨.inr ⟨b, by simp [hs], hb, hread, by simp⟩, .inl (by simp)⟩
  · exact ⟨.inl rfl, .inl rfl⟩
  · obtain ⟨hout, hmore⟩ := rxByte_streams ht
    exact ⟨.inl hout, .inr ⟨by simp [hs], d, by rw [hmore]; exact hin⟩⟩
  · rcases rxTimeout_cases (s.beginStep rest) with ⟨-, e⟩ | ⟨-, e⟩ <;> rw [e] <;> exact ⟨.inl rfl, .inl rfl⟩
  · exact ⟨.inl rfl, .inl rfl⟩

/-! ### `feed` as scheduled steps -/

/-- One byte of `feed` and one scheduled `RX_BYTE` from a state with the same RX state and the same observation. -/
theorem step_of_rxByte {d : Byte} {more : List Byte} {rest : List Action} {s t o : State}
    (hs : o.schedule = .rxByte :: rest) (hin : o.inbound = d :: more) (hrx : s.SameRx o) (hev : o.events = s.events)
    (h : rxByte d s = .next t) :
    ∃ u, step o = .next u ∧ t.SameRx u ∧ u.events = t.events ∧ u.inbound = more ∧ u.schedule = rest ∧
      o.SameTx u ∧ u.outbound = o.outbound ∧ u.config = o.config := by
  obtain ⟨raised, -, ht, hlocal⟩ := rxByte_local h
  have hrx' : s.SameRx (Claims.byteTaken o rest more) :=
    ⟨hrx.state, hrx.len, hrx.remaining, hrx.crc, hrx.buf, hrx.window⟩
  have hu := hlocal (Claims.byteTaken o rest more)
  rw [hrx'.withRxOf_eq, ← step_rxByte hs hin] at hu
  refine ⟨_, hu, State.sameRx_withRxOf _ _ _, ?events, rfl, rfl, ⟨rfl, rfl, rfl, rfl⟩, rfl, rfl⟩
  case events => rw [congrArg State.events ht]; exact congrArg (· ++ raised) hev

theorem steps_of_feed {bytes more : List Byte} {rest : List Action} {s t o : State}
    (hs : o.schedule = List.replicate bytes.length .rxByte ++ rest) (hin : o.inbound = bytes ++ more)
    (hrx : s.SameRx o) (hev : o.events = s.events) (h : feed bytes s = .next t) :
    ∃ u, steps bytes.length o = .next u ∧ t.SameRx u ∧ u.events = t.events ∧ u.inbound = more ∧ u.schedule = rest ∧
      o.SameTx u ∧ u.outbound = o.outbound ∧ u.config = o.config := by
  induction bytes generalizing s o with
  | nil =>
    cases h
    exact ⟨o, rfl, hrx, hev, hin, hs, .refl o, rfl, rfl⟩
  | cons d bytes ih =>
    obtain ⟨s₁, h₁, h₂⟩ := andThen_eq_next h
    obtain ⟨o₁, hstep, hrx₁, hev₁, hin₁, hs₁, htx₁, hout₁, hconfig₁⟩ := step_of_rxByte hs hin hrx hev h₁
    obtain ⟨u, hsteps, hrxu, hevu, hinu, hsu, htxu, houtu, hconfigu⟩ := ih hs₁ hin₁ hrx₁ hev₁ h₂
    refine ⟨u, ?_, hrxu, hevu, hinu, hsu, htx₁.trans htxu, houtu.trans hout₁, hconfigu.trans hconfig₁⟩
    rw [List.length_cons, steps, hstep]
    exact hsteps

/-- The other way round: where the scheduled step goes on, the byte's rule does. -/
theorem rxByte_of_step {d : Byte} {more : List Byte} {rest : List Action} {s o u : State}
    (hs : o.schedule = .rxByte :: rest) (hin : o.inbound = d :: more) (hrx : s.SameRx o) (h : step o = .next u) :
    ∃ t, rxByte d s = .next t ∧ t.SameRx u ∧ u.inbound = more ∧ u.schedule = rest := by
  rw [step_rxByte hs hin] at h
  obtain ⟨raised, -, hu, hlocal⟩ := rxByte_local h
  have hrx' : (Claims.byteTaken o rest more).SameRx s :=
    ⟨hrx.state.symm, hrx.len.symm, hrx.remaining.symm, hrx.crc.symm, hrx.buf.symm, hrx.window.symm⟩
  have ht := hlocal s
  rw [hrx'.withRxOf_eq] at ht
  exact ⟨_, ht, ⟨rfl, rfl, rfl, rfl, rfl, rfl⟩, congrArg State.inbound hu, congrArg State.schedule hu⟩

/-- Where the scheduled steps go on, `feed` does. -/
theorem feed_of_steps {bytes more : List Byte} {rest : List Action} {s o u : State}
    (hs : o.schedule = List.replicate bytes.length .rxByte ++ rest) (hin : o.inbound = bytes ++ more)
    (hrx : s.SameRx o) (h : steps bytes.length o = .next u) : ∃ t, feed bytes s = .next t := by
  induction bytes generalizing s o with
  | nil => exact ⟨s, rfl⟩
  | cons d bytes ih =>
    obtain ⟨o₁, h₁, h₂⟩ := andThen_eq_next h
    obtain ⟨s₁, hd, hrx₁, hin₁, hs₁⟩ := rxByte_of_step hs hin hrx h₁
    obtain ⟨t, ht⟩ := ih hs₁ hin₁ hrx₁ h₂
    exact ⟨t, by rw [feed_cons, hd]; exact ht⟩

/-- Settles O59: byte by byte, one `RX_BYTE` from each of two states with the same RX state. -/
theorem feedIsTheScheduledByteSteps : Obligations.FeedIsTheScheduledByteSteps :=
  fun s _ _ _ hs hin => ⟨fun _ h => steps_of_feed hs hin (.refl s) rfl h, fun _ h => feed_of_steps hs hin (.refl s) h⟩

end Sys2Proof.Machine
end

