-- ==== Sys2Proof/Proofs/Invariant.lean ====
section
/-! The invariant of the block (10_state.md R24 to R33). It splits into the part each agent writes: a step of one agent
carries the other's part over unchanged, and keeps its own. From a state that meets it no step faults. -/

namespace Sys2Proof.Machine

/-! ### The two halves -/

/-- The part of the invariant about TX state. -/
def State.TxHalf (s : State) : Prop := Memory.wf txBufSize s.txBuf ∧ s.TxInv

/-- The part of the invariant about RX state. -/
def State.RxHalf (s : State) : Prop := Memory.wf rxBufSize s.rxBuf ∧ s.RxInv

theorem State.inv_iff (s : State) : s.Inv ↔ s.TxHalf ∧ s.RxHalf :=
  ⟨fun h => ⟨⟨h.buffers.tx, h.tx⟩, h.buffers.rx, h.rx⟩, fun ⟨htx, hrx⟩ => ⟨⟨htx.1, hrx.1⟩, htx.2, hrx.2⟩⟩

theorem State.TxHalf.congr {s t : State} (h : s.TxHalf) (e : s.SameTx t) : t.TxHalf := by
  obtain ⟨hwf, hinv⟩ := h
  obtain ⟨hbusy, hidx, hlen, hbuf⟩ := e
  refine ⟨hbuf ▸ hwf, hlen ▸ hinv.len, ?busy, ?idle⟩
  case busy => rw [hbusy, hidx, hlen, hbuf]; exact hinv.busy
  case idle => rw [hbusy, hidx]; exact hinv.idle

theorem State.RxHalf.congr {s t : State} (h : s.RxHalf) (e : s.SameRx t) : t.RxHalf := by
  obtain ⟨hwf, hinv⟩ := h
  obtain ⟨hstate, hlen, hremaining, hcrc, hbuf, hwindow⟩ := e
  refine ⟨hbuf ▸ hwf, hlen ▸ hinv.len, ?search, ?payload, ?checksum, ?window⟩
  case search => rw [hstate, hremaining]; exact hinv.search
  case payload => unfold State.RxBodyHeld; rw [hstate, hremaining, hlen, hbuf, hcrc]; exact hinv.payload
  case checksum => unfold State.RxBodyHeld; rw [hstate, hremaining, hlen, hbuf, hcrc]; exact hinv.checksum
  case window => rw [hwindow, hbuf]; exact hinv.window

/-! ### The TX agent -/

/-- A loaded frame is whole, and the position stands at its first byte. -/
theorem txHalf_loadFrame {s : State} {l : Layout} (h : s.TxHalf) (hl : l.payload.length ≤ txPayloadMax) :
    (s.loadFrame (frame l)).TxHalf := by
  have hsize : (frame l).length ≤ txBufSize := by rw [frame_length]; unfold txPayloadMax at hl; unfold txBufSize; omega
  refine ⟨Memory.wf_writeBytes h.1 0 _ (by omega), hsize, fun _ => ⟨?position, l, hl, frame_length l, ?held⟩, ?idle⟩
  case position => simp
  case held => exact Memory.readBytes_writeBytes _ _ _
  case idle => exact fun hb => Bool.noConfusion hb

theorem txHalf_of_cmdAccept {d : Descriptor} {s t : State} (h : s.TxHalf) (hstep : cmdAccept d s = .next t) :
    t.TxHalf := by
  rcases cmdAccept_effect hstep with ⟨-, rfl⟩ | ⟨-, reason, rfl⟩ | ⟨-, l, hl, rfl⟩
  · exact h
  · exact h.congr ⟨rfl, rfl, rfl, rfl⟩
  · exact txHalf_loadFrame h hl

/-- The position stays inside the frame, or the serializer is idle at 0. -/
theorem txHalf_txAdvance {s : State} (h : s.TxHalf) (hb : s.txBusy = true) : s.txAdvance.TxHalf := by
  obtain ⟨hwf, hinv⟩ := h
  obtain ⟨hidx, hframe⟩ := hinv.busy hb
  by_cases hlast : s.txIdx + 1 = s.txLen
  · rw [State.txAdvance_last s hlast]
    exact ⟨hwf, hinv.len, fun hb => Bool.noConfusion hb, fun _ => rfl⟩
  · rw [State.txAdvance_more s hlast]
    exact ⟨hwf, hinv.len, fun _ => ⟨Nat.lt_of_le_of_ne hidx hlast, hframe⟩,
      fun hidle => Bool.noConfusion (hb.symm.trans hidle)⟩

theorem txHalf_of_txEmit {s t : State} (h : s.TxHalf) (hstep : txEmit s = .next t) : t.TxHalf := by
  rcases txEmit_cases hstep with ⟨-, rfl⟩ | ⟨hb, b, -, rfl⟩
  · exact h
  · exact txHalf_txAdvance (h.congr (t := s.txPut b) ⟨rfl, rfl, rfl, rfl⟩) hb

/-! ### The RX agent -/

/-- Outside a body nothing is asked but that nothing is due. -/
theorem rxInv_of_search {s : State} (hs : s.rxState = .awaitSync ∨ s.rxState = .awaitLength) (hlen : s.rxLen ≤ rxLenMax)
    (hdue : s.rxRemaining = 0) (hwindow : s.rxWindow ≤ rxBufSize ∧ ∃ body, s.rxBuf.readBytes 0 s.rxWindow = some body) :
    s.RxInv :=
  ⟨hlen, fun _ => hdue, fun h => by simp [h] at hs, fun h => by simp [h] at hs, hwindow⟩

/-- The body rule: the byte is the next one of the body held, and folded into its checksum. -/
theorem rxHalf_store {s : State} (h : s.RxHalf) (hs : s.rxState = .awaitPayload) (d : Byte) :
    State.RxHalf { s with
      rxBuf := s.rxBuf.write (s.rxLen - s.rxRemaining) d
      rxWindow := 0
      rxCrc := crcByte s.rxCrc d
      rxRemaining := s.rxRemaining - 1
      rxState := if s.rxRemaining - 1 = 0 then .awaitChecksum else .awaitPayload } := by
  obtain ⟨hwf, hinv⟩ := h
  obtain ⟨hdue, hle, got, hgot, hcrc⟩ := hinv.payload hs
  have hlen := hinv.len
  have hindex : s.rxLen - s.rxRemaining < rxBufSize := by unfold rxLenMax at hlen; unfold rxBufSize; omega
  have hheld : (s.rxBuf.write (s.rxLen - s.rxRemaining) d).readBytes 0 (s.rxLen - (s.rxRemaining - 1)) =
      some (got ++ [d]) := by
    rw [show s.rxLen - (s.rxRemaining - 1) = s.rxLen - s.rxRemaining + 1 by omega]
    refine Memory.readBytes_snoc _ _ _ ?_ (by rw [Nat.zero_add]; exact Memory.read_write_same _ _ _)
    rw [← hgot]
    exact Memory.readBytes_congr fun a _ ha => Memory.read_write_other _ _ (by omega)
  have hcrc' : crcByte s.rxCrc d = crc8 (got ++ [d]) := by rw [hcrc, crc8_append_byte]
  refine ⟨Memory.wf_write hwf hindex d, hlen, ?search, ?payload, ?checksum, Nat.zero_le _, [], rfl⟩
  case search => intro h; dsimp only at h; split at h <;> simp at h
  case payload =>
    intro h
    have hmore : ¬ s.rxRemaining - 1 = 0 := fun hz => by simp [hz] at h
    exact ⟨Nat.pos_of_ne_zero hmore, by dsimp only; omega, got ++ [d], hheld, hcrc'⟩
  case checksum =>
    intro h
    have hlast : s.rxRemaining - 1 = 0 := by by_contra hz; simp [hz] at h
    exact ⟨hlast, by dsimp only; omega, got ++ [d], hheld, hcrc'⟩

theorem rxHalf_of_rxByte {d : Byte} {s t : State} (h : s.RxHalf) (hstep : rxByte d s = .next t) : t.RxHalf := by
  obtain ⟨hwf, hinv⟩ := id h
  rcases rxByte_cases hstep with ⟨hs, -, rfl⟩ | ⟨-, -, rfl⟩ | ⟨hs, -, rfl⟩ | ⟨-, hd, rfl⟩ | ⟨hs, -, -, rfl⟩ |
    ⟨hs, -, rfl⟩ | ⟨hs, -, r, hr, rfl⟩
  · exact ⟨hwf, rxInv_of_search (.inr rfl) hinv.len (hinv.search (.inl hs)) hinv.window⟩
  · exact h.congr ⟨rfl, rfl, rfl, rfl, rfl, rfl⟩
  · exact ⟨hwf, rxInv_of_search (.inl rfl) hinv.len (hinv.search (.inr hs)) hinv.window⟩
  · have hlen : d.toNat ≤ rxLenMax := Nat.le_of_lt_succ d.isLt
    exact ⟨hwf, hlen, fun h => by simp at h, fun _ => ⟨hd, le_rfl, [], by simp, rfl⟩, RxState.noConfusion, hinv.window⟩
  · exact rxHalf_store h hs d
  · exact ⟨hwf, rxInv_of_search (.inl rfl) hinv.len (hinv.checksum hs).1 hinv.window⟩
  · obtain ⟨body, hbody, -⟩ := Option.bind_eq_some_iff.1 hr
    exact ⟨hwf, rxInv_of_search (.inl rfl) hinv.len (hinv.checksum hs).1 ⟨hinv.len, body, hbody⟩⟩

theorem rxHalf_rxTimeout {s : State} (h : s.RxHalf) : (rxTimeout s).RxHalf := by
  rcases rxTimeout_cases s with ⟨-, e⟩ | ⟨-, e⟩ <;> rw [e]
  · exact h
  · exact ⟨h.1, rxInv_of_search (.inl rfl) h.2.len rfl h.2.window⟩

/-! ### The step -/

theorem txHalf_resetBlock (s : State) : s.resetBlock.TxHalf :=
  ⟨Memory.wf_nil _, Nat.zero_le _, fun h => Bool.noConfusion h, fun _ => rfl⟩

theorem rxHalf_resetBlock (s : State) : s.resetBlock.RxHalf :=
  ⟨Memory.wf_nil _, rxInv_of_search (.inl rfl) (Nat.zero_le _) rfl ⟨Nat.zero_le _, [], rfl⟩⟩

/-- Settles O48: the state after reset is the one `RESET` leaves. -/
theorem invHoldsAtReset : Obligations.InvHoldsAtReset :=
  State.reset.inv_iff.2 ⟨txHalf_resetBlock State.reset, rxHalf_resetBlock State.reset⟩

/-- Settles O49: a step of one agent keeps its half of the invariant and does not touch the other. -/
theorem everyStepKeepsInv : Obligations.EveryStepKeepsInv := by
  intro s t hinv h
  obtain ⟨htx, hrx⟩ := s.inv_iff.1 hinv
  have htx' (rest : List Action) : (s.beginStep rest).TxHalf := htx.congr ⟨rfl, rfl, rfl, rfl⟩
  have hrx' (rest : List Action) (more : List Byte) : State.RxHalf { s.beginStep rest with inbound := more } :=
    hrx.congr ⟨rfl, rfl, rfl, rfl, rfl, rfl⟩
  apply t.inv_iff.2
  rcases step_cases h with ⟨-, rfl⟩ | ⟨rest, ⟨d, -, ht⟩ | ⟨-, ht⟩ | ⟨-, -, rfl⟩ | ⟨d, more, -, -, ht⟩ | ⟨-, rfl⟩ |
    ⟨-, rfl⟩⟩
  · exact ⟨htx' [], hrx' [] s.inbound⟩
  · refine ⟨txHalf_of_cmdAccept (htx' rest) ht, ?_⟩
    obtain ⟨sent, raised, -, e, -⟩ := perform_tx_local (a := .cmdAccept d) (.inr rfl) ht
    rw [e]
    exact (hrx' rest s.inbound).congr (State.sameRx_withTxOf _ _ _ _)
  · refine ⟨txHalf_of_txEmit (htx' rest) ht, ?_⟩
    obtain ⟨sent, raised, -, e, -⟩ := perform_tx_local (a := .txEmit) (.inl rfl) ht
    rw [e]
    exact (hrx' rest s.inbound).congr (State.sameRx_withTxOf _ _ _ _)
  · exact ⟨htx' rest, hrx' rest s.inbound⟩
  · refine ⟨?_, rxHalf_of_rxByte (hrx' rest more) ht⟩
    obtain ⟨raised, -, e, -⟩ := rxByte_local ht
    rw [e]
    exact (htx' rest).congr ⟨rfl, rfl, rfl, rfl⟩
  · refine ⟨?_, rxHalf_rxTimeout (hrx' rest s.inbound)⟩
    obtain ⟨raised, -, e, -⟩ := perform_rx_local (a := .rxTimeout) (.inr rfl) rfl
    rw [e]
    exact (htx' rest).congr ⟨rfl, rfl, rfl, rfl⟩
  · exact ⟨txHalf_resetBlock _, rxHalf_resetBlock _⟩

/-! ### No fault -/

/-- `CMD_ACCEPT` goes on from every state. -/
theorem exists_cmdAccept (d : Descriptor) (s : State) : ∃ t, cmdAccept d s = .next t := by
  cases hb : s.txBusy with
  | true => exact ⟨s, if_pos hb⟩
  | false =>
    cases hd : decode d with
    | error reason => exact ⟨s.emit (.cmdRefused reason), by simp [cmdAccept, hb, hd]⟩
    | ok i => exact ⟨_, cmdAccept_of_decode_eq_ok hd hb⟩

/-- The byte at the position of a whole frame is there to be sent. -/
theorem exists_txEmit {s : State} (h : s.TxHalf) : ∃ t, txEmit s = .next t := by
  cases hb : s.txBusy with
  | false => exact ⟨s, txEmit_idle hb⟩
  | true =>
    obtain ⟨hidx, l, -, hlen, hframe⟩ := h.2.busy hb
    have hread := Memory.read_of_readBytes hframe hidx
    rw [Nat.zero_add, List.getElem?_eq_getElem (by rw [frame_length, ← hlen]; exact hidx)] at hread
    exact ⟨_, txEmit_busy hb hread⟩

/-- A body byte is due in `AwaitPayload`, and the body of a check byte is there to be handed over. -/
theorem exists_rxByte {s : State} (h : s.RxHalf) (d : Byte) : ∃ t, rxByte d s = .next t := by
  have hlen : s.rxLen ≤ 255 := h.2.len
  cases hs : s.rxState with
  | awaitSync =>
    by_cases hd : d = sync
    · exact ⟨_, hd ▸ rxByte_sync hs⟩
    · exact ⟨_, rxByte_discard hs hd⟩
  | awaitLength =>
    by_cases hd : d.toNat < rxLenMin
    · exact ⟨_, rxByte_badLength hs hd⟩
    · exact ⟨_, rxByte_length hs (Nat.le_of_not_lt hd)⟩
  | awaitPayload =>
    obtain ⟨hdue, hle, -⟩ := h.2.payload hs
    exact ⟨_, rxByte_body hs hdue hle hlen⟩
  | awaitChecksum =>
    by_cases hd : d = s.rxCrc
    · obtain ⟨hnone, hone, body, hbody, -⟩ := h.2.checksum hs
      rw [hnone, Nat.sub_zero] at hbody
      obtain ⟨r, hr, -⟩ := exists_classify_of_readBytes hone hbody
      exact ⟨_, rxByte_check_eq hs hd hbody hr⟩
    · exact ⟨_, rxByte_check_ne hs hd⟩

/-- Settles O50: each of the five steps goes on under its agent's half of the invariant. -/
theorem noStepFaultsUnderInv : Obligations.NoStepFaultsUnderInv := by
  intro s hinv
  obtain ⟨htx, hrx⟩ := s.inv_iff.1 hinv
  cases hs : s.schedule with
  | nil => exact ⟨_, step_idle hs⟩
  | cons a rest =>
    rw [step_scheduled hs]
    cases a with
    | cmdAccept d => exact exists_cmdAccept d _
    | txEmit => exact exists_txEmit (htx.congr ⟨rfl, rfl, rfl, rfl⟩)
    | rxByte =>
      cases hin : s.inbound with
      | nil => exact ⟨s.beginStep rest, by simp [perform, takeInbound, hin]⟩
      | cons d more =>
        obtain ⟨t, ht⟩ := exists_rxByte (s := { s.beginStep rest with inbound := more })
          (hrx.congr ⟨rfl, rfl, rfl, rfl, rfl, rfl⟩) d
        exact ⟨t, by simpa [perform, takeInbound, hin] using ht⟩
    | rxTimeout => exact ⟨_, rfl⟩
    | reset => exact ⟨_, rfl⟩

end Sys2Proof.Machine
end

