-- ==== Sys2Proof/Proofs/FrameReception.lean ====
section
/-! Feeding a whole frame (44_deframer.md section 5). `ReceivesBody` says what the deframer holds while the body comes
in; the header establishes it, every body byte keeps it, and the check byte ends the frame. -/

namespace Sys2Proof.Machine

/-- `t` is the deframer that started searching in `s`, inside a frame of `n` body bytes of which `got` have come. -/
structure State.ReceivesBody (s : State) (n : Nat) (got : List Byte) (t : State) : Prop where
  state : t.rxState = if got.length = n then .awaitChecksum else .awaitPayload
  len : t.rxLen = n
  due : t.rxRemaining + got.length = n
  crc : t.rxCrc = crc8 got
  held : t.rxBuf.readBytes 0 got.length = some got
  events : t.events = s.events
  tx : s.SameTx t

/-! ### Header, body, check byte -/

theorem feed_singleton (d : Byte) (s : State) : feed [d] s = rxByte d s := andThen_next_right _

/-- The sync byte and a length from 1 to 255 open the body. -/
theorem feed_header {s : State} {n : Nat} (hs : s.rxState = .awaitSync) (hpos : 1 ≤ n) (hmax : n ≤ 255) :
    ∃ t, feed [sync, BitVec.ofNat 8 n] s = .next t ∧ s.ReceivesBody n [] t := by
  have hn : (BitVec.ofNat 8 n).toNat = n := by rw [BitVec.toNat_ofNat]; exact Nat.mod_eq_of_lt (by omega)
  have hlength := rxByte_length (s := { s with rxState := .awaitLength }) (d := BitVec.ofNat 8 n) rfl (by omega)
  have hfeed : feed [sync, BitVec.ofNat 8 n] s = rxByte (BitVec.ofNat 8 n) { s with rxState := .awaitLength } := by
    rw [feed_cons, rxByte_sync hs, andThen_next, feed_singleton]
  have hne : ¬ 0 = n := by omega
  exact ⟨_, hfeed.trans hlength, by simp [hne], hn, hn, rfl, rfl, rfl, rfl, rfl, rfl, rfl⟩

/-- One more body byte. -/
theorem State.ReceivesBody.byte {s t : State} {n : Nat} {got : List Byte} (h : s.ReceivesBody n got t)
    (hmore : got.length < n) (hmax : n ≤ 255) (d : Byte) :
    ∃ u, rxByte d t = .next u ∧ s.ReceivesBody n (got ++ [d]) u := by
  obtain ⟨hstate, hlen, hdue, hcrc, hheld, hevents, htx⟩ := h
  rw [if_neg (by omega)] at hstate
  have hindex : t.rxLen - t.rxRemaining = got.length := by omega
  refine ⟨_, rxByte_body hstate (by omega) (by omega) (by omega), ?state, hlen, ?due, ?crc, ?held, hevents,
    htx.trans ⟨rfl, rfl, rfl, rfl⟩⟩
  case state =>
    have hlast : t.rxRemaining = 1 ↔ (got ++ [d]).length = n := by simp; omega
    simp only [hlast]
  case due => simp; omega
  case crc => rw [crc8_append_byte, ← hcrc]
  case held =>
    rw [List.length_append, List.length_singleton, hindex]
    refine Memory.readBytes_snoc _ _ _ ?_ (by rw [Nat.zero_add]; exact Memory.read_write_same _ _ _)
    rw [← hheld]
    exact Memory.readBytes_congr fun a _ ha => Memory.read_write_other _ _ (by omega)

/-- Any part of the body that fits. -/
theorem State.ReceivesBody.feed {s t : State} {n : Nat} {got more : List Byte} (h : s.ReceivesBody n got t)
    (hfits : got.length + more.length ≤ n) (hmax : n ≤ 255) :
    ∃ u, Machine.feed more t = .next u ∧ s.ReceivesBody n (got ++ more) u := by
  induction more generalizing t got with
  | nil => exact ⟨t, rfl, by simpa using h⟩
  | cons d more ih =>
    rw [List.length_cons] at hfits
    obtain ⟨t₁, hbyte, h₁⟩ := h.byte (by omega) hmax d
    obtain ⟨u, hfeed, hu⟩ := ih h₁ (by rw [List.length_append, List.length_singleton]; omega)
    refine ⟨u, ?_, by simpa using hu⟩
    rw [feed_cons, hbyte]
    exact hfeed

/-- Header and the first part of the body. -/
theorem feed_header_append {s : State} {n : Nat} {got : List Byte} (hs : s.rxState = .awaitSync) (hpos : 1 ≤ n)
    (hmax : n ≤ 255) (hgot : got.length ≤ n) :
    ∃ t, feed ([sync, BitVec.ofNat 8 n] ++ got) s = .next t ∧ s.ReceivesBody n got t := by
  obtain ⟨t₁, hheader, h₁⟩ := feed_header hs hpos hmax
  obtain ⟨t, hbody, h⟩ := h₁.feed (more := got) (by simpa using hgot) hmax
  exact ⟨t, by rw [feed_append, hheader]; exact hbody, h⟩

/-- The whole body has come: the check byte is due and the body reads back. -/
theorem State.ReceivesBody.complete {s t : State} {body : List Byte} (h : s.ReceivesBody body.length body t) :
    t.rxState = .awaitChecksum ∧ t.rxRemaining = 0 ∧ t.rxBuf.readBytes 0 t.rxLen = some body := by
  have hdue := h.due
  exact ⟨h.state.trans (if_pos rfl), by omega, by rw [h.len]; exact h.held⟩

/-- The frame of any body completes on its last byte, with the body handed over (R186). -/
theorem feed_frame {s : State} {body : List Byte} (hs : s.rxState = .awaitSync) (hpos : 1 ≤ body.length)
    (hmax : body.length ≤ 255) :
    ∃ t r, feed ([sync, BitVec.ofNat 8 body.length] ++ body ++ [crc8 body]) s = .next t ∧ classify body = some r ∧
      t.events = s.events ++ [.complete r] ∧ t.rxState = .awaitSync ∧
      t.rxBuf.readBytes 0 body.length = some body ∧ s.SameTx t := by
  obtain ⟨t, hfeed, h⟩ := feed_header_append (got := body) hs hpos hmax le_rfl
  obtain ⟨hstate, -, hbody⟩ := h.complete
  obtain ⟨r, hr, -⟩ := exists_classify_of_ne_nil (List.ne_nil_of_length_pos hpos)
  refine ⟨t.emitComplete r, r, ?_, hr, by simp [h.events], rfl, h.held,
    h.tx.trans ⟨rfl, rfl, rfl, rfl⟩⟩
  rw [feed_append, hfeed, andThen_next, feed_singleton, rxByte_check_eq hstate h.crc.symm hbody hr]

/-! ### The laws -/

/-- Settles O43: a beginning of the frame is a beginning of its header or the header with a part of the body, and raises
nothing; the whole frame completes. -/
theorem deframerAcceptsEveryWellFormedFrame : Obligations.DeframerAcceptsEveryWellFormedFrame := by
  intro s body hs hpos hmax
  refine ⟨fun k hk => ?quiet, feed_frame hs hpos hmax⟩
  case quiet =>
    match k with
    | 0 => exact ⟨s, rfl, rfl⟩
    | 1 => exact ⟨{ s with rxState := .awaitLength }, (feed_singleton sync s).trans (rxByte_sync hs), rfl⟩
    | k + 2 =>
      obtain ⟨t, hfeed, h⟩ := feed_header_append (got := body.take k) hs hpos hmax (List.length_take_le' k body)
      refine ⟨t, ?_, h.events⟩
      rw [List.take_append_of_le_length (by simp; omega), ← hfeed]
      rfl

/-- Settles O44: the body is received as any other; the check byte that does not match gives it up. -/
theorem wrongCheckByteLosesTheFrame : Obligations.WrongCheckByteLosesTheFrame := by
  intro s body check hs hpos hmax hcheck
  obtain ⟨t, hfeed, h⟩ := feed_header_append (got := body) hs hpos hmax le_rfl
  obtain ⟨hstate, hdue, -⟩ := h.complete
  refine ⟨t.raiseFraming .badChecksum, ?_, by simp [h.events], rfl, hdue,
    h.tx.trans ⟨rfl, rfl, rfl, rfl⟩⟩
  rw [← sync, feed_append, hfeed, andThen_next, feed_singleton, rxByte_check_ne hstate (by rwa [h.crc])]

/-- Bytes without a sync byte are discarded one by one, and the deframer goes on searching (R182). -/
theorem feed_garbage {s : State} {garbage : List Byte} (hs : s.rxState = .awaitSync) (hg : sync ∉ garbage) :
    ∃ t, feed garbage s = .next t ∧ t.events = s.events ++ garbage.map .rxDiscard ∧ t.rxState = .awaitSync := by
  induction garbage generalizing s with
  | nil => exact ⟨s, rfl, by simp, hs⟩
  | cons d garbage ih =>
    obtain ⟨hd, hg⟩ := not_or.1 (List.mem_cons.not.1 hg)
    obtain ⟨t, hfeed, hevents, ht⟩ := ih (s := s.emit (.rxDiscard d)) hs hg
    refine ⟨t, ?_, by simpa using hevents, ht⟩
    rw [feed_cons, rxByte_discard hs (Ne.symm hd)]
    exact hfeed

/-- Settles O46: the frame completes, and what follows is discarded. -/
theorem garbageAfterAFrameIsDiscarded : Obligations.GarbageAfterAFrameIsDiscarded := by
  intro s body garbage hs hpos hmax hg
  obtain ⟨t, r, hfeed, hr, hevents, ht, -⟩ := feed_frame hs hpos hmax
  obtain ⟨u, hgarbage, heventsu, hu⟩ := feed_garbage ht hg
  exact ⟨u, r, by rw [← sync, feed_append, hfeed]; exact hgarbage, hr, by rw [heventsu, hevents], hu⟩

/-! ### The block's own frames -/

/-- Only GetVersion has the id zero (30_encoding.md R80). -/
theorem layoutOf_id_ne_zero {config : Config} {i : Instr} (hi : i ≠ .getVersion) (hdelay : config.delayId ≠ 0x00) :
    (layoutOf config i).id ≠ 0x00 := by
  cases i with
  | getVersion => exact absurd rfl hi
  | delay w => exact hdelay
  | _ => exact of_decide_eq_false rfl

/-- Settles O45: a command's frame is the frame of its body, whose status byte is the command's id. -/
theorem ownFramesLoopBack : Obligations.OwnFramesLoopBack := by
  intro config i s hi hs hdelay
  have hpos : 1 ≤ (layoutOf config i).body.length := Nat.succ_pos _
  have hfits : (layoutOf config i).body.length ≤ 255 :=
    Nat.succ_le_succ (Laws.PayloadFits.statement i hi config)
  obtain ⟨t, r, hfeed, hr, hevents, ht, -⟩ := feed_frame hs hpos hfits
  refine ⟨t, hfeed, ht, hevents.trans ?_⟩
  congr 3
  by_cases hv : i = .getVersion
  · subst hv
    exact (Option.some.inj hr).symm
  · rw [if_neg hv]
    rw [Layout.body, classify, if_neg (by exact layoutOf_id_ne_zero hv hdelay)] at hr
    exact (Option.some.inj hr).symm

end Sys2Proof.Machine
end

