-- ==== Sys2Proof/Proofs/Transmission.lean ====
section
/-! Sending (41_frame_serializer.md section 2): one `TX_EMIT` step, the transmit law along a whole frame, and the shape of
the outbound stream (20_memory.md section 3). -/

namespace Sys2Proof.Machine

/-! ### One step -/

/-- A scheduled `TX_EMIT` sends the byte at the position and moves the position. -/
theorem step_txEmit {s : State} {rest : List Action} {b : Byte} (hs : s.schedule = .txEmit :: rest)
    (hb : s.txBusy = true) (hread : s.txBuf.read s.txIdx = some b) :
    step s = .next ((s.beginStep rest).txPut b).txAdvance :=
  (step_scheduled hs).trans (txEmit_busy hb hread)

/-- Settles O32: the last byte leaves the serializer idle, any other moves the position on. -/
theorem txEmitSendsOneByte : Obligations.TxEmitSendsOneByte := by
  intro s rest hs
  refine ⟨fun b hb hread => ⟨fun hlast => ?last, fun hmore => ?more⟩, fun hidle => ?idle⟩
  case last => rw [step_txEmit hs hb hread, State.txAdvance_last _ (by exact hlast)]; rfl
  case more => rw [step_txEmit hs hb hread, State.txAdvance_more _ (by exact hmore)]; rfl
  case idle => exact (step_scheduled hs).trans (txEmit_idle hidle)

/-- The byte of a held frame at an index inside it. -/
theorem read_of_frame_held {m : Memory} {f : List Byte} {k : Nat} (h : m.readBytes 0 f.length = some f)
    (hk : k < f.length) : m.read k = some f[k] := by
  have hread := Memory.read_of_readBytes h hk
  rwa [Nat.zero_add, List.getElem?_eq_getElem hk] at hread

/-! ### The transmit law -/

/-- `t` is `s` with the frame `f` taken up and `k` bytes of it sent. -/
structure State.Sends (s : State) (f : List Byte) (k : Nat) (t : State) : Prop where
  outbound : t.outbound = s.outbound ++ f.take k
  busy : t.txBusy = decide (k < f.length)
  idx : t.txIdx = if k < f.length then k else 0
  len : t.txLen = f.length
  held : t.txBuf.readBytes 0 f.length = some f
  events : t.events = s.events
  rx : s.SameRx t

/-- A loaded frame is taken up with nothing of it sent. -/
theorem sends_loadFrame (s : State) (rest : List Action) {f : List Byte} (hf : 0 < f.length) :
    s.Sends f 0 ((s.beginStep rest).loadFrame f) :=
  ⟨by simp, by simp [hf], by simp, rfl, Memory.readBytes_writeBytes _ _ _, rfl, ⟨rfl, rfl, rfl, rfl, rfl, rfl⟩⟩

/-- One more byte of the frame. -/
theorem State.Sends.emit {s t : State} {f : List Byte} {k : Nat} {rest : List Action} (h : s.Sends f k t)
    (hk : k < f.length) (hs : t.schedule = .txEmit :: rest) :
    ∃ u, step t = .next u ∧ s.Sends f (k + 1) u ∧ u.schedule = rest := by
  obtain ⟨hout, hbusy, hidx, hlen, hheld, hevents, hrx⟩ := h
  rw [if_pos hk] at hidx
  rw [decide_eq_true hk] at hbusy
  have hstep := step_txEmit hs hbusy (by rw [hidx]; exact read_of_frame_held hheld hk)
  have hout' : t.outbound ++ [f[k]] = s.outbound ++ f.take (k + 1) := by
    rw [hout, List.append_assoc, List.take_append_getElem hk]
  refine ⟨_, hstep, ⟨by simpa using hout', ?busy, ?idx, by simpa using hlen, by simpa using hheld,
    by simpa using hevents, hrx.trans ⟨by simp, by simp, by simp, by simp, by simp, by simp⟩⟩, by simp⟩
  case busy =>
    by_cases hlast : k + 1 = f.length
    · rw [State.txAdvance_last _ (by simpa [hidx, hlen] using hlast)]
      simp [hlast]
    · rw [State.txAdvance_more _ (by simpa [hidx, hlen] using hlast)]
      simpa [hbusy] using Nat.lt_of_le_of_ne hk hlast
  case idx =>
    by_cases hlast : k + 1 = f.length
    · rw [State.txAdvance_last _ (by simpa [hidx, hlen] using hlast)]
      simp [hlast]
    · rw [State.txAdvance_more _ (by simpa [hidx, hlen] using hlast), if_pos (Nat.lt_of_le_of_ne hk hlast)]
      simp [hidx]

/-- Settles O33: the acceptance loads the frame, and each `TX_EMIT` after it sends one more byte, by induction on their
number. -/
theorem transmitLaw : Obligations.TransmitLaw := by
  intro s d i rest n hd hb hn hs k hk
  have hlen : (frameOf s.config i).length = n := by rw [frameOf, frame_length, hn]
  suffices h : ∃ t, steps (k + 1) s = .next t ∧ s.Sends (frameOf s.config i) k t ∧
      t.schedule = List.replicate (n - k) .txEmit ++ rest by
    obtain ⟨t, hsteps, ht, hschedule⟩ := h
    exact ⟨t, hsteps, ht.outbound, hlen ▸ ht.busy, hlen ▸ ht.idx, hschedule, ht.events, ht.rx⟩
  induction k with
  | zero =>
    refine ⟨_, ?accepted, sends_loadFrame s (List.replicate n .txEmit ++ rest) (by omega), rfl⟩
    case accepted =>
      rw [steps_succ, steps, andThen_next, step_scheduled hs]
      exact cmdAccept_of_decode_eq_ok hd hb
  | succ k ih =>
    obtain ⟨t, hsteps, ht, hschedule⟩ := ih (by omega)
    rw [show n - k = n - (k + 1) + 1 by omega, List.replicate_succ, List.cons_append] at hschedule
    obtain ⟨u, hstep, hu⟩ := ht.emit (by omega) hschedule
    exact ⟨u, by rw [steps_succ, hsteps, andThen_next, hstep], hu⟩

/-! ### Whole frames -/

theorem sendsWholeFrames_congr {base : List Byte} {s t : State} (h : Claims.SendsWholeFrames base s) (e : s.SameTx t)
    (hout : t.outbound = s.outbound) : Claims.SendsWholeFrames base t := by
  obtain ⟨sent, hfits, hidle, hbusy⟩ := h
  obtain ⟨ebusy, eidx, elen, ebuf⟩ := e
  refine ⟨sent, hfits, ?_, ?_⟩
  · rw [ebusy, hout]; exact hidle
  · rw [ebusy, eidx, elen, ebuf, hout]; exact hbusy

/-- With nothing sent since `base` and nothing under way there is no frame. -/
theorem sendsWholeFrames_idle {s : State} (hb : s.txBusy = false) : Claims.SendsWholeFrames s.outbound s :=
  ⟨[], by simp, fun _ => by simp, fun h => Bool.noConfusion (hb.symm.trans h)⟩

/-- A frame is taken up between two frames only. -/
theorem sendsWholeFrames_cmdAccept {base : List Byte} {d : Descriptor} {s t : State}
    (h : Claims.SendsWholeFrames base s) (hstep : cmdAccept d s = .next t) : Claims.SendsWholeFrames base t := by
  rcases cmdAccept_effect hstep with ⟨-, rfl⟩ | ⟨-, reason, rfl⟩ | ⟨hb, l, hl, rfl⟩
  · exact h
  · exact sendsWholeFrames_congr h ⟨rfl, rfl, rfl, rfl⟩ rfl
  · obtain ⟨sent, hfits, hidle, -⟩ := h
    refine ⟨sent, hfits, fun hb' => Bool.noConfusion hb', fun _ => ⟨l, hl, rfl, by simp, ?held, ?stream⟩⟩
    case held => exact Memory.readBytes_writeBytes _ _ _
    case stream => simpa using hidle hb

/-- The byte sent is the next one of the frame under way; the last one makes it a whole frame. -/
theorem sendsWholeFrames_txEmit {base : List Byte} {s t : State} (h : Claims.SendsWholeFrames base s)
    (hstep : txEmit s = .next t) : Claims.SendsWholeFrames base t := by
  rcases txEmit_cases hstep with ⟨-, rfl⟩ | ⟨hb, b, hread, rfl⟩
  · exact h
  · obtain ⟨sent, hfits, -, hbusy⟩ := h
    obtain ⟨l, hl, hlen, hidx, hheld, hout⟩ := hbusy hb
    have hk : s.txIdx < (frame l).length := hlen ▸ hidx
    rw [read_of_frame_held (hlen ▸ hheld) hk] at hread
    have hout' : s.outbound ++ [b] = base ++ (sent.map frame).flatten ++ (frame l).take (s.txIdx + 1) := by
      rw [hout, ← Option.some.inj hread, List.append_assoc, List.take_append_getElem hk]
    by_cases hlast : s.txIdx + 1 = s.txLen
    · rw [State.txAdvance_last _ (by exact hlast)]
      refine ⟨sent ++ [l], ?fits, fun _ => ?whole, fun hb' => Bool.noConfusion hb'⟩
      case fits => simpa [or_imp, forall_and] using ⟨hfits, hl⟩
      case whole =>
        rw [hlast, hlen, List.take_length] at hout'
        simpa using hout'
    · rw [State.txAdvance_more _ (by exact hlast)]
      exact ⟨sent, hfits, fun hidle => Bool.noConfusion (hb.symm.trans hidle),
        fun _ => ⟨l, hl, hlen, Nat.lt_of_le_of_ne hidx hlast, hheld, hout'⟩⟩

/-- Settles O35: the TX agent's two steps keep the shape, the RX agent's do not touch what it speaks of, and a `RESET`
starts it again from the bytes sent so far. -/
theorem outboundStreamIsWholeFrames : Obligations.OutboundStreamIsWholeFrames := by
  refine ⟨sendsWholeFrames_idle rfl, fun base s t hbase hreset h => ?step, fun s t hreset h => ?reset⟩
  case step =>
    have hbegin (rest : List Action) : Claims.SendsWholeFrames base (s.beginStep rest) :=
      sendsWholeFrames_congr hbase ⟨rfl, rfl, rfl, rfl⟩ rfl
    rcases step_cases h with ⟨-, rfl⟩ | ⟨rest, ⟨d, -, ht⟩ | ⟨-, ht⟩ | ⟨-, -, rfl⟩ | ⟨d, more, -, -, ht⟩ | ⟨-, rfl⟩ |
      ⟨hs, -⟩⟩
    · exact hbegin []
    · exact sendsWholeFrames_cmdAccept (hbegin rest) ht
    · exact sendsWholeFrames_txEmit (hbegin rest) ht
    · exact hbegin rest
    · obtain ⟨raised, -, e, -⟩ := rxByte_local ht
      rw [e]
      exact sendsWholeFrames_congr (hbegin rest) ⟨rfl, rfl, rfl, rfl⟩ rfl
    · obtain ⟨raised, -, e, -⟩ := perform_rx_local (a := .rxTimeout) (.inr rfl) rfl
      rw [e]
      exact sendsWholeFrames_congr (hbegin rest) ⟨rfl, rfl, rfl, rfl⟩ rfl
    · simp [hs] at hreset
  case reset =>
    obtain ⟨rest, hs⟩ : ∃ rest, s.schedule = .reset :: rest := by
      cases hs : s.schedule <;> simp_all
    rw [step_scheduled hs] at h
    cases h
    exact ⟨sendsWholeFrames_idle (s := (s.beginStep rest).resetBlock) rfl, rfl⟩

end Sys2Proof.Machine
end

