-- ==== Sys2Proof/Proofs/FrameIdentity.lean ====
section
/-! A frame tells its command (30_encoding.md sections 2 and 6). A frame tells its layout, and a layout its command: its
fields are read back from the payload at their offsets. The first three bytes alone tell the row of the opcode table. -/

namespace Sys2Proof.Machine

/-! ### From the frame to the layout -/

/-- Frames of different layouts differ: the payload's length is that of the frame but four. -/
theorem frame_injective {l l' : Layout} (h : frame l = frame l') : l = l' := by
  have hlen : l.payload.length = l'.payload.length := by
    have := congrArg List.length h
    simpa using this
  have hpayload : l.payload = l'.payload := by
    rw [← frame_drop_three_take l, ← frame_drop_three_take l', h, hlen]
  have hid : l.id = l'.id := by
    rw [frame_eq, frame_eq] at h
    simp only [List.cons.injEq] at h
    exact h.2.2.1
  cases l
  cases l'
  simp_all

/-! ### From the layout to the command -/

/-- The payload byte at an offset, zero beyond its end. -/
def byteAt (payload : List Byte) (k : Nat) : Byte := payload.getD k 0

/-- The half at an offset, low byte first. -/
def halfAt (payload : List Byte) (k : Nat) : Half := byteAt payload (k + 1) ++ byteAt payload k

/-- The word at an offset, low byte first. -/
def wordAt (payload : List Byte) (k : Nat) : Word :=
  byteAt payload (k + 3) ++ byteAt payload (k + 2) ++ byteAt payload (k + 1) ++ byteAt payload k

/-- The mask in a mask byte. -/
def axesAt (payload : List Byte) (k : Nat) : AxisSet := (byteAt payload k).setWidth 5

/-- The command a layout belongs to, with the default `DELAY_ID`: each operand from its offset in the payload. The id
that Delay shares with GetCurrentPosition is told apart by the payload. -/
def commandOfLayout (l : Layout) : Instr :=
  let p := l.payload
  match l.id.toNat with
  | 0x00 => .getVersion
  | 0x01 => .init
  | 0x02 => .availableBufferSize
  | 0x03 => .clearBuffer
  | 0x07 => .abort
  | 0x08 => .pause
  | 0x0A => .toolQuery (byteAt p 0) (p.drop 1)
  | 0x0B => .isFinished
  | 0x0C => .eepromRead (byteAt p 0 ++ byteAt p 1) (byteAt p 2)
  | 0x0D => .eepromWrite (halfAt p 0) (byteAt p 2) (p.drop 3)
  | 0x11 => .reset
  | 0x15 => if p = [] then .getCurrentPosition else .delay (wordAt p 0)
  | 0x17 => .getMotherboardStatus
  | 0x83 => .homeAxesMinimum (axesAt p 0) (wordAt p 1) (halfAt p 5)
  | 0x84 => .homeAxesMaximum (axesAt p 0) (wordAt p 1) (halfAt p 5)
  | 0x86 => .changeTool (byteAt p 0)
  | 0x87 => .waitForToolReady (byteAt p 0) (halfAt p 1) (halfAt p 3)
  | 0x88 => .toolAction (byteAt p 0) (byteAt p 1) (p.drop 2)
  | 0x89 => .enableDisableAxes (axesAt p 0) ((byteAt p 0).getLsbD enableBit)
  | 0x8B => .queueExtendedPointLegacy (wordAt p 0) (wordAt p 4) (wordAt p 8) (wordAt p 12) (wordAt p 16) (wordAt p 20)
  | 0x8C => .setExtendedPosition (wordAt p 0) (wordAt p 4) (wordAt p 8) (wordAt p 12) (wordAt p 16)
  | 0x8D => .waitForPlatformReady (byteAt p 0) (halfAt p 1) (halfAt p 3)
  | 0x8E => .queueExtendedPoint (wordAt p 0) (wordAt p 4) (wordAt p 8) (wordAt p 12) (wordAt p 16) (wordAt p 20)
      (axesAt p 24)
  | 0x92 => .setRgbLed (byteAt p 0) (byteAt p 1) (byteAt p 2) (byteAt p 3)
  | _ => .getVersion

/-- A half is its two bytes. -/
@[simp] theorem half_of_bytes (h : Half) : h.extractLsb' 8 8 ++ h.extractLsb' 0 8 = h := by
  rw [BitVec.extractLsb'_append_extractLsb'_eq_extractLsb' (by decide)]
  simp

/-- A word is its four bytes. -/
@[simp] theorem word_of_bytes (w : Word) :
    w.extractLsb' 24 8 ++ w.extractLsb' 16 8 ++ w.extractLsb' 8 8 ++ w.extractLsb' 0 8 = w := by
  rw [BitVec.extractLsb'_append_extractLsb'_eq_extractLsb' (by decide),
    BitVec.extractLsb'_append_extractLsb'_eq_extractLsb' (by decide),
    BitVec.extractLsb'_append_extractLsb'_eq_extractLsb' (by decide)]
  simp

@[simp] theorem setWidth_axisByte (axes : AxisSet) : (axisByte axes).setWidth 5 = axes := by
  rw [axisByte, BitVec.setWidth_setWidth_of_le axes (by decide), BitVec.setWidth_eq]

@[simp] theorem setWidth_enableByte (axes : AxisSet) (enable : Bool) : (enableByte axes enable).setWidth 5 = axes := by
  revert axes enable
  decide

@[simp] theorem getLsbD_enableByte (axes : AxisSet) (enable : Bool) :
    (enableByte axes enable).getLsbD enableBit = enable := by
  revert axes enable
  decide

theorem commandOfLayout_layoutOf (i : Instr) : commandOfLayout (layoutOf Config.default i) = i := by
  cases i with
  | toolQuery toolIndex q => simp [commandOfLayout, layoutOf, layoutToolQuery, byteAt]
  | eepromRead offset n => simp [commandOfLayout, layoutOf, layoutEepromRead, byteAt, u16be_toNat]
  | eepromWrite offset n data =>
    simp [commandOfLayout, layoutOf, layoutEepromWrite, byteAt, halfAt, u16le_toNat]
  | delay w => simp [commandOfLayout, layoutOf, layoutDelay, Config.default, byteAt, wordAt, u32le_toNat]
  | homeAxesMinimum axes f n =>
    simp [commandOfLayout, layoutOf, layoutHomeAxesMinimum, byteAt, axesAt, halfAt, wordAt, u32le_toNat, u16le_toNat]
  | homeAxesMaximum axes f n =>
    simp [commandOfLayout, layoutOf, layoutHomeAxesMaximum, byteAt, axesAt, halfAt, wordAt, u32le_toNat, u16le_toNat]
  | changeTool toolId => simp [commandOfLayout, layoutOf, layoutChangeTool, byteAt]
  | waitForToolReady toolId q n =>
    simp [commandOfLayout, layoutOf, layoutWaitForToolReady, byteAt, halfAt, u16le_toNat]
  | enableDisableAxes axes enable => simp [commandOfLayout, layoutOf, layoutEnableDisableAxes, byteAt, axesAt]
  | queueExtendedPointLegacy x y z a b w =>
    simp [commandOfLayout, layoutOf, layoutQueueExtendedPointLegacy, byteAt, wordAt, u32le_toNat, i32le_toInt]
  | setExtendedPosition x y z a b =>
    simp [commandOfLayout, layoutOf, layoutSetExtendedPosition, byteAt, wordAt, i32le_toInt]
  | waitForPlatformReady toolId q n =>
    simp [commandOfLayout, layoutOf, layoutWaitForPlatformReady, byteAt, halfAt, u16le_toNat]
  | queueExtendedPoint x y z a b w axes =>
    simp [commandOfLayout, layoutOf, layoutQueueExtendedPoint, byteAt, axesAt, wordAt, u32le_toNat, i32le_toInt]
  | setRgbLed red green blue blink => simp [commandOfLayout, layoutOf, layoutSetRgbLed, byteAt]
  | toolAction toolId actionId q => simp [commandOfLayout, layoutOf, layoutToolAction, byteAt]
  | _ => rfl

/-- Settles O16: from the frame to the layout, and from the layout to the command. -/
theorem framesIdentifyCommands : Obligations.FramesIdentifyCommands := by
  intro i j _ _ h
  rw [← commandOfLayout_layoutOf i, ← commandOfLayout_layoutOf j, frame_injective h]

/-! ### From the header to the row of the opcode table -/

/-- The header of a frame: sync, length, id. -/
theorem headerOf_frame (l : Layout) :
    headerOf (frame l) = some (sync ++ BitVec.ofNat 8 (l.payload.length + 1) ++ l.id) := rfl

/-- A row covers the header it spells out. -/
theorem covers_fixed {tag : BitVec 5} {pattern : BitVec 24} {l : Layout} (n id : Byte)
    (hn : BitVec.ofNat 8 (l.payload.length + 1) = n) (hid : l.id = id) (hpattern : sync ++ n ++ id = pattern) :
    (TableRow.fixed tag pattern).covers (sync ++ BitVec.ofNat 8 (l.payload.length + 1) ++ l.id) = true := by
  have hmask : pattern &&& 0xFFFFFF = pattern := BitVec.and_allOnes
  rw [hn, hid, hpattern]
  exact beq_iff_eq.2 hmask

/-- A row with a free length byte covers a header by its sync byte and its id. -/
theorem covers_withString {tag : BitVec 5} {pattern : BitVec 24} {base : Nat} {n id' : Byte} (id : Byte)
    (hid : id' = id) (hpattern : sync ++ 0x00#8 ++ id = pattern) :
    (TableRow.withString tag pattern base).covers (sync ++ n ++ id') = true := by
  have hall : id &&& 0xFF#8 = id := BitVec.and_allOnes
  have hmask : (sync ++ n ++ id') &&& (0xFF#8 ++ 0x00#8 ++ 0xFF#8) = sync ++ 0x00#8 ++ id := by
    rw [hid, BitVec.and_append, BitVec.and_append, hall, BitVec.and_zero]
    rfl
  exact beq_iff_eq.2 (hmask.trans hpattern)

theorem tag_toNat_lt_length (i : Instr) : (encode i).tag.toNat < opcodeTable.length := by
  cases i <;> exact of_decide_eq_true rfl

/-- The row at a command's tag covers the header of the command's frame. -/
theorem covers_header (i : Instr) :
    (opcodeTable[(encode i).tag.toNat]'(tag_toNat_lt_length i)).covers
      (sync ++ BitVec.ofNat 8 ((layoutOf Config.default i).payload.length + 1) ++ (layoutOf Config.default i).id) =
        true := by
  cases i with
  | getVersion => exact covers_fixed 0x01 0x00 rfl rfl rfl
  | init => exact covers_fixed 0x01 0x01 rfl rfl rfl
  | availableBufferSize => exact covers_fixed 0x01 0x02 rfl rfl rfl
  | clearBuffer => exact covers_fixed 0x01 0x03 rfl rfl rfl
  | abort => exact covers_fixed 0x01 0x07 rfl rfl rfl
  | pause => exact covers_fixed 0x01 0x08 rfl rfl rfl
  | toolQuery => exact covers_withString 0x0A rfl rfl
  | isFinished => exact covers_fixed 0x01 0x0B rfl rfl rfl
  | eepromRead => exact covers_fixed 0x04 0x0C rfl rfl rfl
  | eepromWrite => exact covers_withString 0x0D rfl rfl
  | reset => exact covers_fixed 0x01 0x11 rfl rfl rfl
  | getCurrentPosition => exact covers_fixed 0x01 0x15 rfl rfl rfl
  | delay => exact covers_fixed 0x05 0x15 rfl rfl rfl
  | getMotherboardStatus => exact covers_fixed 0x01 0x17 rfl rfl rfl
  | homeAxesMinimum => exact covers_fixed 0x08 0x83 rfl rfl rfl
  | homeAxesMaximum => exact covers_fixed 0x08 0x84 rfl rfl rfl
  | changeTool => exact covers_fixed 0x02 0x86 rfl rfl rfl
  | waitForToolReady => exact covers_fixed 0x06 0x87 rfl rfl rfl
  | enableDisableAxes => exact covers_fixed 0x02 0x89 rfl rfl rfl
  | queueExtendedPointLegacy => exact covers_fixed 0x19 0x8B rfl rfl rfl
  | setExtendedPosition => exact covers_fixed 0x15 0x8C rfl rfl rfl
  | waitForPlatformReady => exact covers_fixed 0x06 0x8D rfl rfl rfl
  | queueExtendedPoint => exact covers_fixed 0x1A 0x8E rfl rfl rfl
  | setRgbLed => exact covers_fixed 0x06 0x92 rfl rfl rfl
  | toolAction => exact covers_withString 0x88 rfl rfl

theorem tag_row (i : Instr) : (opcodeTable[(encode i).tag.toNat]'(tag_toNat_lt_length i)).tag = (encode i).tag := by
  cases i <;> rfl

/-- Two rows of the table that agree on what both look at are the same row. -/
theorem eq_of_pattern_and_mask : ∀ r ∈ opcodeTable, ∀ q ∈ opcodeTable,
    r.pattern &&& q.mask = q.pattern &&& r.mask → r = q := by
  decide +kernel

/-- Settles O12: a header covered by two rows makes them agree on what both look at; a command's row stands at its
tag. -/
theorem tableRowsPartitionTheFrames : Obligations.TableRowsPartitionTheFrames := by
  refine ⟨fun h r q hr hq hcr hcq => eq_of_pattern_and_mask r hr q hq ?agree, fun i _ => ?row⟩
  case agree =>
    rw [← beq_iff_eq.1 hcr, ← beq_iff_eq.1 hcq, BitVec.and_assoc, BitVec.and_assoc, BitVec.and_comm r.mask]
  case row => exact ⟨_, List.getElem_mem _, _, headerOf_frame _, covers_header i, tag_row i⟩

end Sys2Proof.Machine
end

