-- ==== Sys2Proof/Proofs/Acceptance.lean ====
section
/-! Acceptance of a command (41_frame_serializer.md section 2, 42_commands_00_17.md, 43_commands_83_92.md): on an idle
transmitter a well-formed command has its frame taken up, one with an over-long byte string is refused, and a busy
transmitter takes nothing. Each command's frame is then its catalog row written out. -/

namespace Sys2Proof.Machine

/-! ### All commands -/

section
variable {i : Instr} {s : State}

/-- Not enabled while busy (R123). -/
theorem exec_busy (h : s.txBusy = true) : exec i s = .next s := by rw [exec_eq_accept, accept_busy _ h]

/-- A well-formed command's frame is loaded (R124). -/
theorem exec_of_wf (hi : i.wf = true) (hs : s.txBusy = false) :
    exec i s = .next (s.loadFrame (frameOf s.config i)) := by
  rw [exec_eq_accept, accept_fits hs (Laws.PayloadFits.statement i hi s.config), frameOf]

/-- A byte string beyond its cap makes the payload too long for a frame (R88). -/
theorem payload_tooLong_of_not_wf (config : Config) (hi : i.wf = false) :
    txPayloadMax < (layoutOf config i).payload.length := by
  cases i with
  | toolQuery toolIndex q =>
    have hq : ¬ q.length ≤ 253 := of_decide_eq_false hi
    simp [layoutOf, layoutToolQuery, txPayloadMax]; omega
  | eepromWrite offset n data =>
    have hq : ¬ data.length ≤ 251 := of_decide_eq_false hi
    simp [layoutOf, layoutEepromWrite, txPayloadMax]; omega
  | toolAction toolId actionId q =>
    have hq : ¬ q.length ≤ 252 := of_decide_eq_false hi
    simp [layoutOf, layoutToolAction, txPayloadMax]; omega
  | _ => cases hi

/-- An ill-formed command is refused (R125). -/
theorem exec_of_not_wf (hi : i.wf = false) (hs : s.txBusy = false) :
    exec i s = .next (s.emit (.cmdRefused .tooLong)) := by
  rw [exec_eq_accept, accept_tooLong hs (payload_tooLong_of_not_wf s.config hi)]

/-- The frame of a well-formed command, as any list it equals, is taken up. -/
theorem exists_exec_takesUp {f : List Byte} (hs : s.txBusy = false) (hi : i.wf = true) (hf : frameOf s.config i = f) :
    ∃ t, exec i s = .next t ∧ s.TakesUp f t :=
  ⟨_, exec_of_wf hi hs, hf ▸ takesUp_loadFrame s _⟩

/-- An ill-formed command only raises its event. -/
theorem exists_exec_raises (hs : s.txBusy = false) (hi : i.wf = false) :
    ∃ t, exec i s = .next t ∧ s.Raises (.cmdRefused .tooLong) t :=
  ⟨_, exec_of_not_wf hi hs, rfl⟩

end

/-- Settles O26: the frame is loaded, of a command term and of a descriptor that decodes. -/
theorem everyWellFormedCommandIsAccepted : Obligations.EveryWellFormedCommandIsAccepted :=
  ⟨fun _ _ hi hs => exists_exec_takesUp hs hi rfl,
    fun _ _ s hd hs => ⟨_, cmdAccept_of_decode_eq_ok hd hs, takesUp_loadFrame s _⟩⟩

/-- Settles O27: what is common to the three outcomes, and each outcome by itself. -/
theorem commandsLeaveTheRestUnchanged : Obligations.CommandsLeaveTheRestUnchanged := by
  intro i s t h
  cases hb : s.txBusy with
  | true =>
    rw [exec_busy hb] at h
    cases h
    exact ⟨⟨rfl, rfl, rfl, rfl, rfl, rfl⟩, fun _ => rfl, rfl, rfl, rfl, rfl, Bool.noConfusion, Bool.noConfusion,
      fun _ => rfl⟩
  | false =>
    cases hi : i.wf with
    | true =>
      rw [exec_of_wf hi hb] at h
      cases h
      exact ⟨⟨rfl, rfl, rfl, rfl, rfl, rfl⟩, fun _ => rfl, rfl, rfl, rfl, rfl,
        fun _ _ => ⟨(takesUp_loadFrame s _).outside, rfl, rfl⟩, fun _ => Bool.noConfusion, Bool.noConfusion⟩
    | false =>
      rw [exec_of_not_wf hi hb] at h
      cases h
      exact ⟨⟨rfl, rfl, rfl, rfl, rfl, rfl⟩, fun _ => rfl, rfl, rfl, rfl, rfl, fun _ => Bool.noConfusion,
        fun _ _ => ⟨rfl, fun _ => rfl⟩, Bool.noConfusion⟩

/-- Settles O28: a command and a descriptor while busy. -/
theorem busyTransmitterTakesNothing : Obligations.BusyTransmitterTakesNothing :=
  ⟨fun _ _ => exec_busy, fun _ _ h => if_pos h⟩

/-- A descriptor the decoder refuses raises that reason (R125). -/
theorem cmdAccept_of_decode_eq_error {d : Descriptor} {reason : RefuseReason} {s : State}
    (hd : decode d = .error reason) (hs : s.txBusy = false) :
    cmdAccept d s = .next (s.emit (.cmdRefused reason)) := by
  simp [cmdAccept, hs, hd]

/-- Settles O29: the decoder's two refusals, each raised as it is. -/
theorem refusedDescriptorsOnlyRaiseTheEvent : Obligations.RefusedDescriptorsOnlyRaiseTheEvent :=
  fun _ _ hs => ⟨fun ht => ⟨_, cmdAccept_of_decode_eq_error (decode_badTag ht) hs, rfl⟩,
    fun hlong => ⟨_, cmdAccept_of_decode_eq_error (decode_overlong hlong) hs, rfl⟩⟩

/-- Settles O30: on an idle transmitter `CMD_ACCEPT` of a descriptor that decodes is the command. -/
theorem stepRunsTheDecodedCommand : Obligations.StepRunsTheDecodedCommand := by
  intro s d rest i hs hb hd
  have hexec : cmdAccept d (s.beginStep rest) = exec i (s.beginStep rest) := by simp [cmdAccept, hb, hd]
  exact (step_scheduled hs).trans hexec

/-! ### The commands with ids 0x00 to 0x17 -/

/-- Settles O17: the ten tags, the ten frames, and Abort while busy. -/
theorem noPayloadCommandsTakeUpTheirFrames : Obligations.NoPayloadCommandsTakeUpTheirFrames := by
  refine ⟨fun d => ?tags, fun s hs => ?frames, fun s => exec_busy⟩
  case tags => refine ⟨?_, ?_, ?_, ?_, ?_, ?_, ?_, ?_, ?_, ?_⟩ <;> exact fun h => by simp [decode, h]
  case frames =>
    refine ⟨?_, ?_, ?_, ?_, ?_, ?_, ?_, ?_, ?_, ?_⟩ <;> exact exists_exec_takesUp hs rfl (by dsimp only [frameOf, layoutOf]; decide)

/-- Settles O18: decoding on both sides of each cap, and the frame or the refusal on both sides of it. -/
theorem toolStringsAreCopiedOrRefused : Obligations.ToolStringsAreCopiedOrRefused := by
  refine ⟨fun d ht => ⟨fun hle => ?_, fun hlt => decode_overlong (.inl ⟨ht, hlt⟩)⟩,
    fun d ht => ⟨fun hle => ?_, fun hlt => decode_overlong (.inr (.inr ⟨ht, hlt⟩))⟩,
    fun s toolIndex q hs => ⟨fun hle => ?_, fun hlt => ?_⟩,
    fun s toolId actionId p hs => ⟨fun hle => ?_, fun hlt => ?_⟩⟩
  · rw [decode_toolQuery ht, Descriptor.boundedBytes_of_le hle, low8_eq_extractLsb']; rfl
  · rw [decode_toolAction ht, Descriptor.boundedBytes_of_le hle, low8_eq_extractLsb', low8_eq_extractLsb']; rfl
  · refine exists_exec_takesUp hs (decide_eq_true hle) ?_
    simp [frameOf, layoutOf, layoutToolQuery, frame_eq, sync, Nat.add_comm 2]
  · exact exists_exec_raises hs (decide_eq_false (Nat.not_le.2 hlt))
  · refine exists_exec_takesUp hs (decide_eq_true hle) ?_
    simp [frameOf, layoutOf, layoutToolAction, frame_eq, sync, Nat.add_comm 3]
  · exact exists_exec_raises hs (decide_eq_false (Nat.not_le.2 hlt))

/-- Settles O19: EepromRead's offset is `u16be`, EepromWrite's `u16le`. -/
theorem eepromOffsetsHaveTheirByteOrders : Obligations.EepromOffsetsHaveTheirByteOrders := by
  refine ⟨fun d ht => ?_, fun d ht => ⟨fun hle => ?_, fun hlt => decode_overlong (.inr (.inl ⟨ht, hlt⟩))⟩,
    fun s offset n hs => ?_, fun s offset n data hs => ⟨fun hle => ?_, fun hlt => ?_⟩⟩
  · simp [decode, ht, low8_eq_extractLsb', low16_eq_extractLsb']
  · rw [decode_eepromWrite ht, Descriptor.boundedBytes_of_le hle, low8_eq_extractLsb', low16_eq_extractLsb']; rfl
  · refine exists_exec_takesUp hs rfl ?_
    simp [frameOf, layoutOf, layoutEepromRead, frame_eq, sync, u16be_toNat]
  · refine exists_exec_takesUp hs (decide_eq_true hle) ?_
    simp [frameOf, layoutOf, layoutEepromWrite, frame_eq, sync, u16le_toNat, Nat.add_comm 4]
  · exact exists_exec_raises hs (decide_eq_false (Nat.not_le.2 hlt))

/-- Settles O20: the id of the frame is the constant of the state, whatever its value. -/
theorem delayCarriesTheConfiguredId : Obligations.DelayCarriesTheConfiguredId := by
  refine ⟨fun d ht => by simp [decode, ht], fun s w hs => exists_exec_takesUp hs rfl ?frame, by decide +kernel,
    by decide +kernel, by decide +kernel⟩
  case frame => simp [frameOf, layoutOf, layoutDelay, frame_eq, sync, u32le_toNat]

/-! ### The commands with ids 0x83 to 0x92 -/

/-- The mask byte is the mask under three zero bits (R78). -/
theorem axisByte_eq_append (axes : AxisSet) : axisByte axes = 0#3 ++ axes := by
  revert axes
  decide

/-- The enable flag stands at bit 7, above two zero bits and the mask (R79). -/
theorem enableByte_eq_append (axes : AxisSet) (enable : Bool) :
    enableByte axes enable = BitVec.ofBool enable ++ 0#2 ++ axes := by
  revert axes enable
  decide

/-- Settles O21: mask byte, feedrate, timeout. -/
theorem homingCommandsTakeUpTheirFrames : Obligations.HomingCommandsTakeUpTheirFrames := by
  refine ⟨fun d => ⟨fun ht => ?_, fun ht => ?_⟩, fun s axes f n hs =>
    ⟨exists_exec_takesUp hs rfl ?minimum, exists_exec_takesUp hs rfl ?maximum⟩⟩
  · simp [decode, ht, low16_eq_extractLsb']
  · simp [decode, ht, low16_eq_extractLsb']
  case minimum =>
    simp [frameOf, layoutOf, layoutHomeAxesMinimum, frame_eq, sync, axisByte_eq_append, u32le_toNat, u16le_toNat]
  case maximum =>
    simp [frameOf, layoutOf, layoutHomeAxesMaximum, frame_eq, sync, axisByte_eq_append, u32le_toNat, u16le_toNat]

/-- Settles O22: the tool byte, then the two halves low byte first. -/
theorem toolSelectionCommandsTakeUpTheirFrames : Obligations.ToolSelectionCommandsTakeUpTheirFrames := by
  refine ⟨fun d => ⟨fun ht => ?_, fun ht => ?_, fun ht => ?_⟩, fun s toolId q n hs =>
    ⟨exists_exec_takesUp hs rfl ?change, exists_exec_takesUp hs rfl ?tool, exists_exec_takesUp hs rfl ?platform⟩⟩
  · simp [decode, ht, low8_eq_extractLsb']
  · simp [decode, ht, low8_eq_extractLsb', low16_eq_extractLsb']
  · simp [decode, ht, low8_eq_extractLsb', low16_eq_extractLsb']
  case change => simp [frameOf, layoutOf, layoutChangeTool, frame_eq, sync]
  case tool => simp [frameOf, layoutOf, layoutWaitForToolReady, frame_eq, sync, u16le_toNat]
  case platform => simp [frameOf, layoutOf, layoutWaitForPlatformReady, frame_eq, sync, u16le_toNat]

/-- Settles O23: the one payload byte of the frame. -/
theorem enableFlagIsBitSevenOfTheMask : Obligations.EnableFlagIsBitSevenOfTheMask := by
  refine ⟨fun d ht => by simp [decode, ht], fun s axes enable hs => exists_exec_takesUp hs rfl ?frame⟩
  case frame => simp [frameOf, layoutOf, layoutEnableDisableAxes, frame_eq, sync, enableByte_eq_append]

theorem i32le_eq_wordBytes (w : Word) : i32le w.toInt = Claims.wordBytes w := i32le_toInt w

theorem u32le_eq_wordBytes (w : Word) : u32le w.toNat = Claims.wordBytes w := u32le_toNat w

@[simp] theorem length_wordBytes (w : Word) : (Claims.wordBytes w).length = 4 := rfl

/-- Settles O24: words by `wordBytes`, the mask byte last. -/
theorem motionCommandsTakeUpTheirFrames : Obligations.MotionCommandsTakeUpTheirFrames := by
  refine ⟨fun d => ⟨fun ht => ?_, fun ht => ?_, fun ht => ?_⟩, fun s x y z a b w axes xyzab hs hxyzab =>
    ⟨exists_exec_takesUp hs rfl ?legacy, exists_exec_takesUp hs rfl ?position, exists_exec_takesUp hs rfl ?point⟩⟩
  · simp [decode, ht]
  · simp [decode, ht]
  · simp [decode, ht]
  case legacy =>
    simp [frameOf, layoutOf, layoutQueueExtendedPointLegacy, frame_eq, sync, hxyzab, i32le_eq_wordBytes,
      u32le_eq_wordBytes]
  case position =>
    simp [frameOf, layoutOf, layoutSetExtendedPosition, frame_eq, sync, hxyzab, i32le_eq_wordBytes]
  case point =>
    simp [frameOf, layoutOf, layoutQueueExtendedPoint, frame_eq, sync, hxyzab, i32le_eq_wordBytes, u32le_eq_wordBytes,
      axisByte_eq_append]

/-- Settles O25: four operand bytes and the reserved zero. -/
theorem setRgbLedWritesItsReservedZero : Obligations.SetRgbLedWritesItsReservedZero := by
  refine ⟨fun d ht => ?_, fun s red green blue blink hs => exists_exec_takesUp hs rfl ?frame⟩
  · simp [decode, ht, low8_eq_extractLsb']
  case frame => simp [frameOf, layoutOf, layoutSetRgbLed, frame_eq, sync]

end Sys2Proof.Machine
end

