-- ==== Sys2Proof/Proofs/ChecksumLaws.lean ====
section
/-! The laws of the checksum (40_checksum.md section 3). Each round is linear over exclusive-or, so is the whole fold; a
byte step can be undone, so that a difference once in the accumulator stays there. -/

namespace Sys2Proof.Machine

/-! ### Linearity -/

/-- What a round mixes into the shifted accumulator. -/
def crcMix (b : Bool) : Byte := if b then crcPolyR else 0

theorem crcMix_xor (b b' : Bool) : crcMix (b ^^ b') = crcMix b ^^^ crcMix b' := by
  revert b b'
  decide

theorem crcBit_eq_crcMix (c : Byte) (b : Bool) : crcBit c b = (c >>> 1) ^^^ crcMix (c.getLsbD 0 ^^ b) := by
  cases h : c.getLsbD 0 ^^ b with
  | true => exact crcBit_of_xor h
  | false => exact (crcBit_of_not_xor h).trans BitVec.xor_zero.symm

/-- A round on exclusive-ors is the exclusive-or of two rounds. -/
theorem crcBit_xor (c c' : Byte) (b b' : Bool) : crcBit (c ^^^ c') (b ^^ b') = crcBit c b ^^^ crcBit c' b' := by
  have hmix : ((c ^^^ c').getLsbD 0 ^^ (b ^^ b')) = ((c.getLsbD 0 ^^ b) ^^ (c'.getLsbD 0 ^^ b')) := by
    rw [BitVec.getLsbD_xor]
    simp only [Bool.xor_assoc, Bool.xor_left_comm]
  rw [crcBit_eq_crcMix, crcBit_eq_crcMix, crcBit_eq_crcMix, hmix, crcMix_xor, BitVec.ushiftRight_xor_distrib]
  ac_rfl

theorem foldl_crcBit_xor (bits : List Nat) (c c' d d' : Byte) :
    bits.foldl (fun acc i => crcBit acc ((d ^^^ d').getLsbD i)) (c ^^^ c') =
      bits.foldl (fun acc i => crcBit acc (d.getLsbD i)) c ^^^ bits.foldl (fun acc i => crcBit acc (d'.getLsbD i)) c' := by
  induction bits generalizing c c' with
  | nil => rfl
  | cons i bits ih => rw [List.foldl_cons, List.foldl_cons, List.foldl_cons, BitVec.getLsbD_xor, crcBit_xor, ih]

theorem crcByte_xor (c c' d d' : Byte) : crcByte (c ^^^ c') (d ^^^ d') = crcByte c d ^^^ crcByte c' d' :=
  foldl_crcBit_xor _ c c' d d'

theorem foldl_crcByte_xor {s t : List Byte} (h : s.length = t.length) (c c' : Byte) :
    (List.zipWith (· ^^^ ·) s t).foldl crcByte (c ^^^ c') = s.foldl crcByte c ^^^ t.foldl crcByte c' := by
  induction s generalizing t c c' with
  | nil =>
    obtain rfl : t = [] := List.eq_nil_of_length_eq_zero h.symm
    rfl
  | cons d s ih =>
    cases t with
    | nil => simp at h
    | cons d' t =>
      rw [List.zipWith_cons_cons, List.foldl_cons, List.foldl_cons, List.foldl_cons, crcByte_xor,
        ih (Nat.succ.inj h)]

/-- Settles O4: the fold is linear in accumulator and bytes together, and the initial accumulator is zero. -/
theorem crcIsLinear : Obligations.CrcIsLinear := fun _ _ h => foldl_crcByte_xor h crcInit crcInit

/-! ### Differences stay -/

/-- The byte step takes no other accumulator to zero. -/
theorem eq_zero_of_crcByte_zero : ∀ c : Byte, crcByte c 0 = 0 → c = 0 := by decide +kernel

/-- The byte step tells exclusive-ors of accumulator and data byte apart. -/
theorem xor_eq_of_crcByte_eq {c c' d d' : Byte} (h : crcByte c d = crcByte c' d') : c ^^^ d = c' ^^^ d' := by
  have hzero : crcByte ((c ^^^ d) ^^^ (c' ^^^ d')) 0 = 0 := by
    have hlinear := crcByte_xor (c ^^^ d) (c' ^^^ d') 0 0
    rwa [← crcByte_eq_crcByte_xor_zero, ← crcByte_eq_crcByte_xor_zero, h, BitVec.xor_self, BitVec.xor_self] at hlinear
  exact BitVec.xor_eq_zero_iff.1 (eq_zero_of_crcByte_zero _ hzero)

theorem foldl_crcByte_injective (s : List Byte) : Function.Injective fun c => s.foldl crcByte c := by
  induction s with
  | nil => exact fun _ _ h => h
  | cons d s ih => exact fun c c' h => (BitVec.xor_left_inj d).1 (xor_eq_of_crcByte_eq (ih h))

/-- Changing one byte of a sequence by a difference other than zero changes the fold. -/
theorem foldl_crcByte_modify_ne {s : List Byte} {k : Nat} {e : Byte} (he : e ≠ 0) (hk : k < s.length) (c : Byte) :
    (s.modify k fun b => b ^^^ e).foldl crcByte c ≠ s.foldl crcByte c := by
  induction s generalizing k c with
  | nil => simp at hk
  | cons d s ih =>
    cases k with
    | zero =>
      intro h
      have hxor := xor_eq_of_crcByte_eq (foldl_crcByte_injective s h)
      exact he (by simpa using hxor)
    | succ k => exact ih (Nat.lt_of_succ_lt_succ hk) (crcByte c d)

/-- Settles O5: a single bit is a difference other than zero. -/
theorem crcSeesEverySingleBitFlip : Obligations.CrcSeesEverySingleBitFlip := by
  intro s k j hk hj
  have hbit : ∀ j < 8, 1#8 <<< j ≠ 0 := by decide
  exact foldl_crcByte_modify_ne (hbit j hj) hk crcInit

/-- Settles O6: the check byte meets itself in the accumulator. -/
theorem crcResidueIsZero : Obligations.CrcResidueIsZero := fun s => by rw [crc8_append_byte, crcByte_self]

end Sys2Proof.Machine
end

