-- ==== Sys2Proof/Proofs/AxisNames.lean ====
section
/-! Axis names at the API boundary (30_encoding.md R93). A name adds its axis to the mask of the others; adding axes
commutes, and adding one twice is adding it once. -/

namespace Sys2Proof.Machine

/-! ### One more name -/

theorem axisSetOfNames_cons (c : Char) (l : List Char) :
    axisSetOfNames (c :: l) = (axisOfName c).bind fun axis => (axisSetOfNames l).map (axisBit axis ||| ·) := by
  rw [axisSetOfNames]
  cases axisOfName c <;> cases axisSetOfNames l <;> rfl

theorem axisSetOfNames_swap (c c' : Char) (l : List Char) :
    axisSetOfNames (c :: c' :: l) = axisSetOfNames (c' :: c :: l) := by
  simp only [axisSetOfNames_cons]
  cases axisOfName c <;> cases axisOfName c' <;> cases axisSetOfNames l <;> simp
  rw [← BitVec.or_assoc, ← BitVec.or_assoc, BitVec.or_comm (axisBit _)]

theorem axisSetOfNames_perm {l l' : List Char} (h : l.Perm l') : axisSetOfNames l = axisSetOfNames l' := by
  induction h with
  | nil => rfl
  | cons c _ ih => rw [axisSetOfNames_cons, axisSetOfNames_cons, ih]
  | swap c c' l => exact axisSetOfNames_swap c' c l
  | trans _ _ ih ih' => exact ih.trans ih'

/-- A name said twice in a row counts once. -/
theorem axisSetOfNames_twice (c : Char) (l : List Char) : axisSetOfNames (c :: c :: l) = axisSetOfNames (c :: l) := by
  simp only [axisSetOfNames_cons]
  cases axisOfName c <;> cases axisSetOfNames l <;> simp
  rw [← BitVec.or_assoc, BitVec.or_self]

/-! ### Case -/

/-- The lower-case letters, by their codes. -/
theorem axisOfName_toUpper_ofNat :
    ∀ n < 26, axisOfName (Char.ofNat (97 + n)).toUpper = axisOfName (Char.ofNat (97 + n)) := by
  decide

theorem axisOfName_toUpper (c : Char) : axisOfName c.toUpper = axisOfName c := by
  by_cases hlower : 'a'.val ≤ c.val ∧ c.val ≤ 'z'.val
  · have hcode : 97 ≤ c.toNat ∧ c.toNat ≤ 122 := hlower
    have hc : c = Char.ofNat (97 + (c.toNat - 97)) := by rw [Nat.add_sub_cancel' hcode.1, Char.ofNat_toNat]
    rw [hc]
    exact axisOfName_toUpper_ofNat _ (by omega)
  · have hsame : c.toUpper = c := dif_neg hlower
    rw [hsame]

theorem axisSetOfNames_toUpper (l : List Char) : axisSetOfNames (l.map Char.toUpper) = axisSetOfNames l := by
  induction l with
  | nil => rfl
  | cons c l ih => rw [List.map_cons, axisSetOfNames_cons, axisSetOfNames_cons, axisOfName_toUpper, ih]

/-! ### Which names, which bits -/

theorem axisSetOfNames_eq_none_iff (l : List Char) : axisSetOfNames l = none ↔ ∃ c ∈ l, axisOfName c = none := by
  induction l with
  | nil => simp [axisSetOfNames]
  | cons c l ih =>
    rw [axisSetOfNames_cons]
    cases hc : axisOfName c <;> simp [hc, ih]

/-- An axis is in a mask with one more axis when it is that axis or was in the mask. -/
theorem or_axisBit_and_eq_iff : ∀ (axis axis' : Axis) (m : AxisSet),
    (axisBit axis' ||| m) &&& axisBit axis = axisBit axis ↔ axis' = axis ∨ m &&& axisBit axis = axisBit axis := by
  intro axis axis'
  cases axis <;> cases axis' <;> decide

theorem axisSetOfNames_and_eq_iff {l : List Char} {m : AxisSet} (h : axisSetOfNames l = some m) (axis : Axis) :
    m &&& axisBit axis = axisBit axis ↔ ∃ c ∈ l, axisOfName c = some axis := by
  induction l generalizing m with
  | nil =>
    cases h
    have hbit : (0 : AxisSet) &&& axisBit axis ≠ axisBit axis := by cases axis <;> decide
    simpa using hbit
  | cons c l ih =>
    rw [axisSetOfNames_cons] at h
    obtain ⟨axis', hc, h⟩ := Option.bind_eq_some_iff.1 h
    obtain ⟨m', hm', rfl⟩ := Option.map_eq_some_iff.1 h
    rw [or_axisBit_and_eq_iff, ih hm']
    simp [hc]

/-- Settles O9: a repeated name is brought to the front next to itself, which no order forbids. -/
theorem axisNamesIgnoreOrderAndCase : Obligations.AxisNamesIgnoreOrderAndCase := by
  refine ⟨fun _ _ => axisSetOfNames_perm, axisSetOfNames_toUpper, fun l c hc => ?repeated, rfl,
    axisSetOfNames_eq_none_iff, fun l m axis h => axisSetOfNames_and_eq_iff h axis⟩
  case repeated =>
    have hfront := List.perm_cons_erase hc
    rw [axisSetOfNames_perm (hfront.cons c), axisSetOfNames_twice, axisSetOfNames_perm hfront]

end Sys2Proof.Machine
end

