-- ==== Sys2Proof/Proofs/ReadWindow.lean ====
section
/-! The host's window on `rx_buf` (10_state.md R32): a step opens it on a completed body, closes it, or leaves every read
as it was. Which of the three, and when, is said once. -/

namespace Sys2Proof.Machine

/-! ### Reads -/

theorem rxRdData_of_closed {s : State} (h : s.rxWindow = 0) (a : Byte) : s.rxRdData a = none := by
  simp [State.rxRdData, h]

theorem rxRdData_congr {s t : State} (hwindow : t.rxWindow = s.rxWindow) (hbuf : t.rxBuf = s.rxBuf) (a : Byte) :
    t.rxRdData a = s.rxRdData a := by
  simp only [State.rxRdData, hwindow, hbuf]

/-- A window as long as a body that the buffer holds shows exactly that body. -/
theorem rxRdData_of_open {s : State} {body : List Byte} (hbody : s.rxBuf.readBytes 0 s.rxWindow = some body) (a : Byte) :
    s.rxRdData a = body[a.toNat]? := by
  unfold State.rxRdData
  split
  · next ha => simpa using Memory.read_of_readBytes hbody ha
  · next ha => exact (List.getElem?_eq_none (by rw [Memory.readBytes_length hbody]; omega)).symm

/-- A class hands over the body it was made from. -/
theorem body_of_classify {body : List Byte} {r : Response} (h : classify body = some r) : r.body = body := by
  have hne : body ≠ [] := fun hnil => by rw [(classify_eq_none_iff body).2 hnil] at h; cases h
  obtain ⟨r', hr', hbody⟩ := exists_classify_of_ne_nil hne
  rw [h] at hr'
  rwa [Option.some.inj hr']

/-! ### The three things a step does to the window -/

/-- The step stores a body byte or resets the block. -/
def State.ClosesWindow (s : State) : Prop :=
  (s.schedule.head? = some .rxByte ∧ s.inbound ≠ [] ∧ s.rxState = .awaitPayload) ∨ s.schedule.head? = some .reset

/-- `t` has completed a response, and shows its body. -/
def State.OpensWindow (t : State) : Prop :=
  ∃ r, t.pulses = [.complete r] ∧ ∀ a : Byte, t.rxRdData a = r.body[a.toNat]?

/-- What `RX_BYTE` does to the window, with no pulses before. -/
theorem rxByte_window {d : Byte} {s t : State} (hp : s.pulses = []) (h : rxByte d s = .next t) :
    (s.rxState ≠ .awaitPayload ∧ t.OpensWindow) ∨
      (s.rxState = .awaitPayload ∧ t.rxWindow = 0 ∧ ∀ r, t.pulses ≠ [.complete r]) ∨
      (s.rxState ≠ .awaitPayload ∧ (∀ a, t.rxRdData a = s.rxRdData a) ∧ ∀ r, t.pulses ≠ [.complete r]) := by
  rcases rxByte_cases h with ⟨hs, -, rfl⟩ | ⟨hs, -, rfl⟩ | ⟨hs, -, rfl⟩ | ⟨hs, -, rfl⟩ | ⟨hs, -, -, rfl⟩ |
    ⟨hs, -, rfl⟩ | ⟨hs, -, r, hr, rfl⟩
  case inr.inr.inr.inr.inl => exact .inr (.inl ⟨hs, rfl, by simp [hp]⟩)
  case inr.inr.inr.inr.inr.inr =>
    obtain ⟨body, hbody, hclass⟩ := Option.bind_eq_some_iff.1 hr
    refine .inl ⟨by simp [hs], r, by simp [hp], fun a => ?_⟩
    rw [body_of_classify hclass]
    exact rxRdData_of_open (s := s.emitComplete r) hbody a
  all_goals exact .inr (.inr ⟨by simp [hs], rxRdData_congr rfl rfl, by simp [hp]⟩)

/-- What a step does to the window. -/
theorem step_window {s t : State} (h : step s = .next t) :
    (¬ s.ClosesWindow ∧ t.OpensWindow) ∨
      (s.ClosesWindow ∧ t.rxWindow = 0 ∧ ∀ r, t.pulses ≠ [.complete r]) ∨
      (¬ s.ClosesWindow ∧ (∀ a, t.rxRdData a = s.rxRdData a) ∧ ∀ r, t.pulses ≠ [.complete r]) := by
  unfold State.ClosesWindow
  rcases step_cases h with ⟨hs, rfl⟩ | ⟨rest, ⟨d, hs, ht⟩ | ⟨hs, ht⟩ | ⟨hs, hin, rfl⟩ | ⟨d, more, hs, hin, ht⟩ |
    ⟨hs, rfl⟩ | ⟨hs, rfl⟩⟩
  · exact .inr (.inr ⟨by simp [hs], rxRdData_congr rfl rfl, by simp⟩)
  · refine .inr (.inr ⟨by simp [hs], ?_⟩)
    rcases cmdAccept_effect ht with ⟨-, rfl⟩ | ⟨-, reason, rfl⟩ | ⟨-, l, -, rfl⟩ <;>
      exact ⟨rxRdData_congr rfl rfl, by simp⟩
  · refine .inr (.inr ⟨by simp [hs], ?_, by simp [txEmit_pulses ht]⟩)
    rcases txEmit_cases ht with ⟨-, rfl⟩ | ⟨-, b, -, rfl⟩ <;> exact rxRdData_congr (by simp) (by simp)
  · exact .inr (.inr ⟨by simp [hs, hin], rxRdData_congr rfl rfl, by simp⟩)
  · rcases rxByte_window rfl ht with ⟨hstate, hopen⟩ | ⟨hstate, hclosed⟩ | ⟨hstate, hkept⟩
    · exact .inl ⟨by simpa [hs, hin] using hstate, hopen⟩
    · exact .inr (.inl ⟨.inl ⟨by simp [hs], by simp [hin], hstate⟩, hclosed⟩)
    · exact .inr (.inr ⟨by simpa [hs, hin] using hstate, hkept⟩)
  · refine .inr (.inr ⟨by simp [hs], ?_⟩)
    rcases rxTimeout_cases (s.beginStep rest) with ⟨-, e⟩ | ⟨-, e⟩ <;> rw [e] <;>
      exact ⟨rxRdData_congr rfl rfl, by simp⟩
  · exact .inr (.inl ⟨.inr (by simp [hs]), rfl, by simp⟩)

/-- Settles O60: each of the three outcomes of a step answers the clause it is under and contradicts the other two. -/
theorem bodyIsReadableInItsWindow : Obligations.BodyIsReadableInItsWindow := by
  refine ⟨rxRdData_of_closed rfl, fun s t h => ?_⟩
  rcases step_window h with ⟨hkeeps, r, hr, hread⟩ | ⟨hcloses, hclosed, hnone⟩ | ⟨hkeeps, hread, hnone⟩
  · refine ⟨fun r' hr' => ?_, fun hcloses => absurd hcloses hkeeps, fun _ _ hnone => absurd hr (hnone r)⟩
    rw [hr] at hr'
    cases hr'
    exact hread
  · exact ⟨fun r hr => absurd hr (hnone r), fun _ => rxRdData_of_closed hclosed,
      fun hbyte hreset => absurd hcloses (not_or.2 ⟨hbyte, hreset⟩)⟩
  · exact ⟨fun r hr => absurd hr (hnone r), fun hcloses => absurd hcloses hkeeps, fun _ _ _ => hread⟩

end Sys2Proof.Machine
end

