-- ==== Sys2Proof/Proofs/SingleSteps.lean ====
section
/-! Single steps and outputs: the class of a response, the discarded bytes, `RX_TIMEOUT`, `RESET`, and the outputs of the
ports as functions of the state (44_deframer.md, 70_reset_and_hazards.md, 10_state.md sections 6 and 7). -/

namespace Sys2Proof.Machine

/-- A body whose status byte is zero is acknowledged (R187). -/
theorem classify_ok (data : List Byte) : classify (statusOk :: data) = some (.acknowledged (statusOk :: data)) := by
  simp [classify]

/-- A body with any other status byte is rejected with it as the code (R187). -/
theorem classify_rejected {status : Byte} (h : status ≠ statusOk) (data : List Byte) :
    classify (status :: data) = some (.deviceRejected status (status :: data)) :=
  if_neg h

/-- Settles O38: the two classes, and that every body has one of them. -/
theorem statusByteClassifiesTheResponse : Obligations.StatusByteClassifiesTheResponse :=
  ⟨classify_ok, fun _ data h => classify_rejected h data, fun _ => exists_classify_of_ne_nil⟩

/-- Settles O39: the discard rule and the zero-length rule, on the state that has taken the byte. -/
theorem discardedBytesAndZeroLengths : Obligations.DiscardedBytesAndZeroLengths := by
  intro s rest d more hsched hin
  rw [step_rxByte hsched hin]
  refine ⟨fun hs hd => rxByte_discard hs hd, fun hs hd => rxByte_badLength hs ?zero⟩
  case zero => rw [hd]; decide

/-- Settles O42: the two cases of `RX_TIMEOUT`. -/
theorem timeoutTruncatesOnlyInsideAFrame : Obligations.TimeoutTruncatesOnlyInsideAFrame :=
  fun _ _ hs => ⟨fun hinside => (step_scheduled hs).trans (congrArg _ (if_neg hinside)),
    fun houtside => (step_scheduled hs).trans (congrArg _ (if_pos houtside))⟩

/-- Settles O47: the registers of `State.reset` and of the state `RESET` leaves. -/
theorem resetLeavesTheBlockIdle : Obligations.ResetLeavesTheBlockIdle := by
  refine ⟨by decide, fun s rest hs => ⟨_, step_scheduled hs, ?_⟩⟩
  exact ⟨rfl, rfl, rfl, rfl, rfl, rfl, rfl, rfl, rfl, rfl, rfl, rfl, rfl, rfl, rfl⟩

/-! ### Outputs -/

/-- The outputs of a step with one pulse. -/
theorem eventOutputs_of_one_pulse {s : State} {e : Event} (h : s.pulses = [e]) :
    s.eventOutputs = EventOutputs.low.raise e := by
  rw [State.eventOutputs, h]
  rfl

/-- The length, the status byte and the class of a completed body (R45). -/
theorem completePulse_of_classify {status : Byte} {data : List Byte} {r : Response}
    (h : classify (status :: data) = some r) :
    completePulse r = { len := BitVec.ofNat 8 (data.length + 1), status, ok := status == 0x00 } := by
  by_cases hs : status = statusOk
  · subst hs
    rw [classify_ok] at h
    cases h
    rfl
  · rw [classify_rejected hs] at h
    cases h
    simp [completePulse, show ¬ status = 0#8 from hs]

/-- Settles O57: one pulse raises one output, with the code of its reason. -/
theorem eventOutputsCarryTheirCodes : Obligations.EventOutputsCarryTheirCodes := by
  refine ⟨fun s h => ?quiet, fun s => eventOutputs_of_one_pulse, fun s => eventOutputs_of_one_pulse,
    fun s d => eventOutputs_of_one_pulse, fun s status data r hr h => ?complete, fun s => eventOutputs_of_one_pulse,
    fun s => eventOutputs_of_one_pulse, fun s => eventOutputs_of_one_pulse⟩
  case quiet => rw [State.eventOutputs, h]; rfl
  case complete =>
    rw [eventOutputs_of_one_pulse h, ← completePulse_of_classify hr]
    rfl

/-- Settles O58: each output is a flag of the state, or the byte at the position. -/
theorem statusOutputsFollowTheState : Obligations.StatusOutputsFollowTheState := by
  intro s
  refine ⟨?_, ?_, Iff.rfl, rfl, fun hb => if_pos hb, ?_⟩
  · simp [State.cmdReady]
  · simp [State.rxIdle]
  · simp [State.txLast]

end Sys2Proof.Machine
end

