-- ==== Sys2Proof/Proofs/ClockEdge.lean ====
section
/-! One clock edge as atomic steps (10_state.md R40 to R46). The port's byte reaches the deframer directly, a scheduled
`RX_BYTE` takes it from the inbound stream; the TX agent's step, which stands before it, does not see that stream. -/

namespace Sys2Proof.Machine

/-! ### The TX agent and the inbound stream -/

/-- The state with another inbound stream. -/
def State.withInbound (more : List Byte) (s : State) : State := { s with inbound := more }

theorem accept_withInbound (l : Layout) (more : List Byte) (s : State) :
    accept l (s.withInbound more) = andThen (accept l s) fun t => .next (t.withInbound more) := by
  cases hb : s.txBusy with
  | true => rw [accept_busy l hb, accept_busy l (by exact hb), andThen_next]
  | false =>
    by_cases hl : l.payload.length ≤ txPayloadMax
    · rw [accept_fits hb hl, accept_fits (by exact hb) hl]; rfl
    · rw [accept_tooLong hb (by omega), accept_tooLong (by exact hb) (by omega)]; rfl

theorem cmdAccept_withInbound (d : Descriptor) (more : List Byte) (s : State) :
    cmdAccept d (s.withInbound more) = andThen (cmdAccept d s) fun t => .next (t.withInbound more) := by
  unfold cmdAccept
  cases hb : s.txBusy with
  | true => simp [State.withInbound, hb]
  | false =>
    cases hd : decode d with
    | error reason => simp [State.withInbound, State.emit, hb]
    | ok i =>
      simp only [exec_eq_accept]
      simpa [State.withInbound, hb] using accept_withInbound (layoutOf s.config i) more s

theorem txEmit_withInbound (more : List Byte) (s : State) :
    txEmit (s.withInbound more) = andThen (txEmit s) fun t => .next (t.withInbound more) := by
  cases hb : s.txBusy with
  | false => rw [txEmit_idle hb, txEmit_idle (by exact hb), andThen_next]
  | true =>
    cases hread : s.txBuf.read s.txIdx with
    | none => simp [txEmit, State.withInbound, hb, hread, andThen]
    | some b =>
      rw [txEmit_busy hb hread, txEmit_busy (by exact hb) (by exact hread), andThen_next]
      by_cases hlast : s.txIdx + 1 = s.txLen <;>
        simp [State.withInbound, State.txPut, State.txAdvance, hlast]

/-! ### The steps an edge asks for -/

/-- The TX agent's part of `Claims.edgeActions`. -/
def txEdgeActions (p : PortInputs) (s : State) : List Action :=
  if s.txBusy then (if p.txReady then [.txEmit] else []) else (if p.cmdValid then [.cmdAccept p.cmd] else [])

/-- The RX agent's part of `Claims.edgeActions`. -/
def rxEdgeActions (p : PortInputs) : List Action :=
  (if p.rxValid then [.rxByte] else []) ++ (if p.rxTimeout then [.rxTimeout] else [])

theorem edgeActions_eq (p : PortInputs) (s : State) :
    Claims.edgeActions p s = txEdgeActions p s ++ rxEdgeActions p :=
  List.append_assoc _ _ _

/-- The steps of an edge, taken one after the other. -/
def performAll (actions : List Action) (o : Host.Outcome State Fault Refusal) : Host.Outcome State Fault Refusal :=
  actions.foldl (fun o a => andThen o (perform a)) o

/-- A fault before the first of them ends them all. -/
theorem performAll_eq_andThen (actions : List Action) (o : Host.Outcome State Fault Refusal) :
    performAll actions o = andThen o fun s => performAll actions (.next s) := by
  induction actions generalizing o with
  | nil => exact (andThen_next_right o).symm
  | cons a actions ih =>
    calc performAll actions (andThen o (perform a))
      _ = andThen (andThen o (perform a)) fun s => performAll actions (.next s) := ih _
      _ = andThen o fun s => andThen (perform a s) fun t => performAll actions (.next t) := andThen_assoc _ _ _
      _ = andThen o fun s => performAll (a :: actions) (.next s) := congrArg _ (funext fun s => (ih _).symm)

theorem andThen_congr {o : Host.Outcome State Fault Refusal} {f g : State → Host.Outcome State Fault Refusal}
    (h : ∀ t, o = .next t → f t = g t) : andThen o f = andThen o g := by
  cases o with
  | next t => exact h t rfl
  | fault r => rfl
  | refused r => rfl

/-- An edge asks the TX agent for one step or none. -/
theorem txEdge_cases (p : PortInputs) (s : State) :
    (txEdgeActions p s = [] ∧ txEdge p s = .next s) ∨
      (txEdgeActions p s = [.txEmit] ∧ txEdge p s = txEmit s) ∨
      (txEdgeActions p s = [.cmdAccept p.cmd] ∧ txEdge p s = cmdAccept p.cmd s) := by
  unfold txEdgeActions txEdge State.cmdReady State.txValid
  cases s.txBusy <;> cases p.txReady <;> cases p.cmdValid <;> simp

/-- The TX agent's part of an edge, run with more on the inbound stream. -/
theorem performAll_txEdgeActions (p : PortInputs) (more : List Byte) (s : State) :
    performAll (txEdgeActions p s) (.next (s.withInbound more)) =
      andThen (txEdge p s) fun t => .next (t.withInbound more) := by
  rcases txEdge_cases p s with ⟨ha, he⟩ | ⟨ha, he⟩ | ⟨ha, he⟩ <;> rw [ha, he]
  · rfl
  · exact txEmit_withInbound more s
  · exact cmdAccept_withInbound p.cmd more s

theorem txEdge_inbound {p : PortInputs} {s t : State} (h : txEdge p s = .next t) : t.inbound = s.inbound := by
  rcases txEdge_cases p s with ⟨-, he⟩ | ⟨-, he⟩ | ⟨-, he⟩ <;> rw [he] at h
  · cases h
    rfl
  · obtain ⟨sent, raised, -, ht, -⟩ := perform_tx_local (a := .txEmit) (.inl rfl) h
    rw [ht]
    rfl
  · obtain ⟨sent, raised, -, ht, -⟩ := perform_tx_local (a := .cmdAccept p.cmd) (.inr rfl) h
    rw [ht]
    rfl

/-- The RX agent's part of an edge, run with the port's byte at the front of the inbound stream. -/
theorem performAll_rxEdgeActions (p : PortInputs) (t : State) :
    performAll (rxEdgeActions p) (.next (t.withInbound (if p.rxValid then p.rxData :: t.inbound else t.inbound))) =
      rxEdge p t := by
  have hbyte : perform .rxByte (t.withInbound (p.rxData :: t.inbound)) = rxByte p.rxData t := rfl
  have htimeout : perform .rxTimeout = fun t => .next (rxTimeout t) := rfl
  have hsame : t.withInbound t.inbound = t := rfl
  cases hv : p.rxValid <;> cases ht : p.rxTimeout <;>
    simp [performAll, rxEdgeActions, rxEdge, rxDataEdge, hv, ht, hbyte, htimeout, hsame]

/-- An edge without `rst` is the two agents' steps. -/
theorem clockEdge_eq_performAll {p : PortInputs} (hr : p.rst = false) (s : State) :
    clockEdge p s = performAll (Claims.edgeActions p s)
      (.next { s with pulses := [], inbound := if p.rxValid then p.rxData :: s.inbound else s.inbound }) := by
  have hstart := performAll_txEdgeActions p (if p.rxValid then p.rxData :: s.inbound else s.inbound)
    { s with pulses := [] }
  have hsplit (o : Host.Outcome State Fault Refusal) : performAll (Claims.edgeActions p s) o =
      performAll (rxEdgeActions p) (performAll (txEdgeActions p { s with pulses := [] }) o) := by
    rw [edgeActions_eq]
    exact List.foldl_append
  rw [hsplit, performAll_eq_andThen]
  refine .trans ?_ (congrArg (fun o => andThen o _) hstart).symm
  rw [andThen_assoc, clockEdge, hr]
  refine andThen_congr fun t ht => ?_
  rw [andThen_next, ← performAll_rxEdgeActions, txEdge_inbound ht]

/-- Settles O56: the edge's two parts one after the other, and the two worked edges. -/
theorem clockEdgeOrdersItsSteps : Obligations.ClockEdgeOrdersItsSteps := by
  refine ⟨fun p s hr => if_pos hr, fun p s => ?three, fun p s hr => clockEdge_eq_performAll hr s,
    fun p s hr hc ht hv hto hd hs => ?truncated, fun p s hr hv hto hc hb => ?accept⟩
  case three =>
    rw [edgeActions_eq, List.length_append]
    have htx : (txEdgeActions p s).length ≤ 1 := by
      rcases txEdge_cases p s with ⟨h, -⟩ | ⟨h, -⟩ | ⟨h, -⟩ <;> simp [h]
    have hrx : (rxEdgeActions p).length ≤ 2 := by
      unfold rxEdgeActions
      cases p.rxValid <;> cases p.rxTimeout <;> simp
    omega
  case truncated =>
    have hbyte : rxByte p.rxData { s with pulses := [] } = .next { s with pulses := [], rxState := .awaitLength } := by
      rw [hd]
      exact rxByte_sync hs
    have htx : txEdge p { s with pulses := [] } = .next { s with pulses := [] } := by simp [txEdge, hc, ht]
    rw [clockEdge, if_neg (by simp [hr]), htx, andThen_next, rxEdge, rxDataEdge, if_pos hv, hbyte, andThen_next,
      if_pos hto]
    simp [rxTimeout, State.raiseFraming, State.emit, hs]
  case accept =>
    have htx : txEdge p { s with pulses := [] } = cmdAccept p.cmd { s with pulses := [] } := by
      simp [txEdge, State.cmdReady, hc, hb]
    have hrx : rxEdge p = .next := by
      funext t
      simp [rxEdge, rxDataEdge, hv, hto]
    rw [clockEdge, if_neg (by simp [hr]), htx, hrx, andThen_next_right]

end Sys2Proof.Machine
end
